-- ==== Sys2Proof/Word.lean ====
section
/-! DEFINITION. The word, byte and block types of the RC5 engine (rules R9, R120; glossary "Block"). The word
operations themselves are in Machine/Datapath.lean. -/

namespace Sys2Proof

/-- A word is an unsigned 32-bit value (rule R120); bit 0 is the least significant (rule R9). -/
abbrev Word := BitVec 32

/-- One byte of the key memory (rule R61). -/
abbrev Byte := BitVec 8

/-- One 64-bit block as its two words: `d0` is buffer word `2k`, `d1` is buffer word `2k + 1` (rules R27, R62). -/
structure Block where
  d0 : Word
  d1 : Word
  deriving DecidableEq, Repr

end Sys2Proof
end

