-- ==== Sys2Proof/Syntax.lean ====
section
/-! DEFINITION. The five commands (rules R2, R93). The operand `N` is an index, a natural number (rules R10, R94);
that it fits its 16-bit field is the check of WellFormed.lean. -/

namespace Sys2Proof

/-- One constructor per row of spec/opcode_table.json. -/
inductive Instr where
  /-- `INIT r`: claim a context of `r` rounds (rule R141). -/
  | init (r : Nat)
  /-- `KEY b`: expand the `b` key bytes of KEYMEM into the round keys (rule R151). -/
  | key (b : Nat)
  /-- `ENC n`: encrypt `n` blocks of BUF in place (rule R171). -/
  | enc (n : Nat)
  /-- `DEC n`: decrypt `n` blocks of BUF in place (rule R181). -/
  | dec (n : Nat)
  /-- `DESTROY`: zero the round keys and give the context up (rule R191). -/
  | destroy
  deriving DecidableEq, Repr

namespace Instr

/-- The operation code `OP` of rule R93. -/
def opcode : Instr → Nat
  | .init _ => 1
  | .key _ => 2
  | .enc _ => 3
  | .dec _ => 4
  | .destroy => 5

/-- The operand `N` of rules R93 and R94; DESTROY's must be 0. -/
def operand : Instr → Nat
  | .init r => r
  | .key b => b
  | .enc n => n
  | .dec n => n
  | .destroy => 0

end Instr

end Sys2Proof
end

