-- ==== Sys2Proof/WellFormed.lean ====
section
/-! DEFINITION. Which instructions have a command word: the operand must fit the 16-bit field `N` (rules R92, R94).
Legal ranges that depend on the machine (`ROUNDS_MAX` and so on) are no part of this check: such words decode and
fault when they run (rule R94). -/

namespace Sys2Proof

namespace Instr

/-- The operand can be encoded: `0 <= n <= 65535` (rules R94, R100). -/
abbrev WellFormed : Instr → Prop
  | .init r => r ≤ 65535
  | .key b => b ≤ 65535
  | .enc n => n ≤ 65535
  | .dec n => n ≤ 65535
  | .destroy => True

end Instr

end Sys2Proof
end

