-- ==== Sys2Proof/Decode.lean ====
section
/-! DEFINITION. The command decoder and encoder (rules R91 to R97, R100). A command is one 32-bit word; there is one
length and one format. -/

namespace Sys2Proof

/-- Why a word is illegal: the three cases of rule R96. Each is reported as `E_ILLCMD`. -/
inductive Illegal where
  /-- (a) `OP` is `0x0` or `0x6` to `0xF`. -/
  | unusedOp
  /-- (b) the field `ZERO` is not `0x000`, whatever `OP` is. -/
  | reservedNotZero
  /-- (c) `OP = 0x5` (DESTROY) and `N` is not 0. -/
  | destroyOperand
  deriving DecidableEq, Repr

/-- `OP`, bits 31:28 (rule R92). -/
def opField (w : Word) : BitVec 4 := w.extractLsb' 28 4

/-- `ZERO`, bits 27:16 (rule R92). -/
def zeroField (w : Word) : BitVec 12 := w.extractLsb' 16 12

/-- `N`, bits 15:0 (rule R92). -/
def nField (w : Word) : BitVec 16 := w.extractLsb' 0 16

/-- The decoder of rule R100, total on all words; the operand is zero-extended (rule R94). -/
def decode (w : Word) : Except Illegal Instr :=
  if zeroField w ≠ 0#12 then .error .reservedNotZero
  else
    match (opField w).toNat with
    | 1 => .ok (.init (nField w).toNat)
    | 2 => .ok (.key (nField w).toNat)
    | 3 => .ok (.enc (nField w).toNat)
    | 4 => .ok (.dec (nField w).toNat)
    | 5 => if nField w = 0#16 then .ok .destroy else .error .destroyOperand
    | _ => .error .unusedOp

/-- The encoder of rule R100: `code(op) * 2^28 + n`, for `0 <= n <= 65535`. The spec gives no word for an operand above
65535: the same sum modulo `2^32` there is the model's own. DESIGN CHOICE, unsafe for a claim about such an operand: log
entry 23. -/
def encode (i : Instr) : Word := BitVec.ofNat 32 (i.opcode * 2 ^ 28 + i.operand)

/-- A command word whose bits `nbits - 1 : 0` are those of `w` and whose other bits are 0. A command is one 32-bit
register write (rules R33, R91), so there is no byte layout to choose. -/
def tableWord (nbits w : Nat) : Word := BitVec.ofNat 32 (w % 2 ^ nbits)

/-- What the decoder reads from a word numbered as the opcode table numbers it. -/
def decodeTableWord (nbits w : Nat) : Option Instr :=
  match decode (tableWord nbits w) with
  | .ok i => some i
  | .error _ => none

/-- The mask and match values of rule R95, in the order of its table (INIT, KEY, ENC, DEC, DESTROY). -/
def opcodeRows : List (Word × Word) :=
  [(0xFFFF0000#32, 0x10000000#32), (0xFFFF0000#32, 0x20000000#32), (0xFFFF0000#32, 0x30000000#32),
   (0xFFFF0000#32, 0x40000000#32), (0xFFFFFFFF#32, 0x50000000#32)]

/-- A word selects a row exactly when `w AND mask = match` (rule R95). -/
abbrev selectsRow (w : Word) (row : Word × Word) : Prop := w &&& row.1 = row.2

end Sys2Proof
end

