-- ==== Sys2Proof/Machine/Datapath.lean ====
section
/-! DEFINITION. The six word operations of the datapath (rules R120 to R126). None sets a flag or can fault
(rules R31, R132). -/

namespace Sys2Proof.Machine

/-- `ADD32`: addition modulo `2^32`, the carry discarded (rule R121). -/
def add32 (x y : Word) : Word := x + y

/-- `SUB32`: subtraction modulo `2^32`, the borrow discarded (rule R122). -/
def sub32 (x y : Word) : Word := x - y

/-- `XOR32`: bitwise exclusive or (rule R123). -/
def xor32 (x y : Word) : Word := x ^^^ y

/-- `AMT5`: the low five bits as an index from 0 to 31 (rule R124). -/
def amt5 (x : Word) : Nat := (x.extractLsb' 0 5).toNat

/-- `ROTL32`: bit `(i + n) mod 32` of the result is `x[i]`, for `0 <= n <= 31` (rule R125). -/
def rotl32 (x : Word) (n : Nat) : Word := x.rotateLeft n

/-- `ROTR32`: bit `i` of the result is `x[(i + n) mod 32]`, for `0 <= n <= 31` (rule R126). -/
def rotr32 (x : Word) (n : Nat) : Word := x.rotateRight n

end Sys2Proof.Machine
end

