-- ==== Sys2Proof/Config.lean ====
section
/-! DEFINITION. The implementation parameters (rule R6). The spec gives every rule over them, so a machine is
described together with its parameters: `Machine.State` carries a `Params`, which no step changes (log entry 1). -/

namespace Sys2Proof

/-- The three parameters that rule R6 leaves to the implementation and that the model takes as named arguments. -/
structure Params where
  /-- `ROUNDS_MAX`: the largest round count INIT accepts. -/
  roundsMax : Nat
  /-- `KEY_MAX_BYTES`: the largest key length KEY accepts, and the size of KEYMEM in bytes. -/
  keyMaxBytes : Nat
  /-- `BUF_BLOCKS`: the size of BUF in 64-bit blocks. -/
  bufBlocks : Nat
  deriving DecidableEq, Repr

namespace Params

/-- The legal ranges of rule R6. -/
abbrev Legal (p : Params) : Prop :=
  p.roundsMax ≤ 255 ∧ (1 ≤ p.keyMaxBytes ∧ p.keyMaxBytes ≤ 65535) ∧ (1 ≤ p.bufBlocks ∧ p.bufBlocks ≤ 65536)

/-- `S_CAP = 2 * ROUNDS_MAX + 2`, the number of physical round-key cells (rules R6, R25). -/
def sCap (p : Params) : Nat := 2 * p.roundsMax + 2

/-- `L_CAP = ceil(KEY_MAX_BYTES / 4)`, the number of padded-key cells (rules R6, R28). -/
def lCap (p : Params) : Nat := (p.keyMaxBytes + 3) / 4

/-- The size of BUF in words (rule R60). -/
def bufWords (p : Params) : Nat := 2 * p.bufBlocks

end Params

namespace Config

/-- The parameters of `State.reset`. `ROUNDS_MAX` and `KEY_MAX_BYTES` have the defaults of rule R6.
`BUF_BLOCKS` has no default there: 8 is the value of the spec's test vectors. DESIGN CHOICE, unsafe where a claim
is about this one value: log entry 2. -/
def resetParams : Params := { roundsMax := 255, keyMaxBytes := 255, bufBlocks := 8 }

end Config

end Sys2Proof
end

