-- ==== Sys2Proof/Machine/State.lean ====
section
/-! DEFINITION. The state of one engine instance (rules R20 to R41), the host's moves (rules R75 to R77) and the state
after reset (rule R40). Everything is plain data. -/

namespace Sys2Proof.Machine

/-- The lifecycle state `CTX` of rule R21. The code 3 is never written, so the type does not hold it (U13). -/
inductive Ctx where
  /-- `EMPTY`: no context exists. -/
  | empty
  /-- `ALLOC`: INIT has run; the round keys are undefined. -/
  | alloc
  /-- `KEYED`: KEY has run; every round key holds a word. -/
  | keyed
  deriving DecidableEq, Repr

/-- The result codes of rule R200, the only values `RES` takes (U13). -/
inductive Result where
  | ok
  | eIllcmd
  | eState
  | eNokey
  | eAlloc
  | eKeylen0
  | eBounds
  deriving DecidableEq, Repr

/-- A memory of `w`-bit cells by index, as its listed cells. Canonical form: indices strictly rising
(`Memory.wf`). An unlisted cell holds NO VALUE: nothing has written it since reset (rules R66, R67). -/
abbrev Memory (w : Nat) := List (Nat × BitVec w)

/-- The three host registers by number (rules R33 to R35). No other register number can be named (rule R36). -/
inductive Reg where
  /-- Register 0, write-only. -/
  | cmd
  /-- Register 1, read-only. -/
  | status
  /-- Register 2, read-write. -/
  | bbase
  deriving DecidableEq, Repr

/-- All the moves the host has (rules R75 to R77). -/
inductive HostMove where
  /-- `HostWriteReg(r, w)`; on `CMD` this issues the command `w`. -/
  | writeReg (r : Reg) (w : Word)
  /-- `HostReadReg(r)`. -/
  | readReg (r : Reg)
  /-- `HostWriteKey(a, v)`. -/
  | writeKey (a : Nat) (v : Byte)
  /-- `HostReadKey(a)`. -/
  | readKey (a : Nat)
  /-- `HostWriteBuf(j, v)`. -/
  | writeBuf (j : Nat) (v : Word)
  /-- `HostReadBuf(j)`. -/
  | readBuf (j : Nat)
  /-- `HostReset`. -/
  | reset
  deriving DecidableEq, Repr

/-- What a host read returned. A cell that holds no value answers `none` (log entry 6). -/
inductive HostAnswer where
  | reg (r : Reg) (v : Word)
  | key (a : Nat) (v : Option Byte)
  | buf (j : Nat) (v : Option Word)
  deriving DecidableEq, Repr

/-- The state of the engine, of its two memories and of the host that drives it. -/
structure State where
  /-- The implementation parameters (rule R6): the model's own field, constant in every run (log entry 1). -/
  params : Params
  /-- `CTX` (rule R21). -/
  ctx : Ctx
  /-- `NR`, the round count of the live context (rule R22). -/
  nr : BitVec 8
  /-- The physical cells of the round-key store `S` (rules R23 to R25). `none`: the cell holds no value, as every
  live cell does while `CTX = ALLOC` (rule R24). -/
  sStore : List (Option Word)
  /-- The cells of the padded-key buffer `L` (rule R28). -/
  lStore : List Word
  /-- Accumulator `A` (rule R26). -/
  a : Word
  /-- Accumulator `B` (rule R26). -/
  b : Word
  /-- Data register `D0` (rule R27). -/
  d0 : Word
  /-- Data register `D1` (rule R27). -/
  d1 : Word
  /-- `BBASE`, the first block of the next ENC or DEC (rule R35). -/
  bbase : BitVec 16
  /-- `RES` (rules R34, R200). -/
  res : Result
  /-- `FAULT`, sticky (rules R34, R212). -/
  fault : Bool
  /-- `OVR`, sticky (rule R34). -/
  ovr : Bool
  /-- `BUSY` (rule R34). -/
  busy : Bool
  /-- `KEYMEM`, by byte index (rules R60, R61). -/
  keymem : Memory 8
  /-- `BUF`, by word index (rules R60, R62, R65). -/
  buf : Memory 32
  /-- The host's remaining moves, next one first (rules R30, R244; log entry 3). -/
  pending : List HostMove
  /-- What the host's reads returned, oldest first (rule R99 "the listing shows the value"; log entry 4). -/
  listing : List HostAnswer
  deriving DecidableEq, Repr

/-- Why the machine stops with a fault. None of these is a fault of the engine: an engine fault is a next state
(rule R210). -/
inductive Fault where
  /-- A host move on a KEYMEM byte that does not exist, `a >= KEY_MAX_BYTES` (rule R75). Raised by the host moves
  on KEYMEM. Safe. -/
  | noSuchKeyByte (a : Nat)
  /-- A host move on a BUF word that does not exist, `j >= 2 * BUF_BLOCKS` (rule R76). Raised by the host moves on
  BUF. Safe. -/
  | noSuchBufWord (j : Nat)
  /-- A host access to KEYMEM or BUF while `BUSY = 1`: a data race the spec leaves undefined (rule R78). Raised by the
  host moves on the memories; no step of the model leaves `BUSY = 1`. Safe. -/
  | memoryRace
  deriving DecidableEq, Repr

/-- Why the model gives a step no meaning. -/
inductive Refusal where
  /-- An instruction without a meaning, by its mnemonic. Raised by no arm of `exec`. Safe. -/
  | notModelled (mnemonic : String)
  /-- KEY would read a byte of KEYMEM that nothing has written since reset (rule R66). Raised by KEY. Safe. -/
  | unwrittenKeyByte
  /-- ENC or DEC would read a word of BUF that nothing has written since reset (rule R67). Raised by ENC, DEC. Safe. -/
  | unwrittenBufWord
  /-- ENC or DEC in `KEYED` found a live round-key cell without a value. No state that meets the invariant has one
  (rule R39 (c)). Raised by ENC, DEC. Safe. -/
  | undefinedRoundKey
  deriving DecidableEq, Repr

/-- The three outcomes of a step, for this machine. -/
abbrev Answer := Host.Outcome State Fault Refusal

/-- Every field as rule R40 gives it: the engine after reset with parameters `p`, no cell of the host's memories
holding a value, and a host that has no move and has read nothing. -/
def State.resetWith (p : Params) : State where
  params := p
  ctx := .empty
  nr := 0
  sStore := List.replicate p.sCap (some 0)
  lStore := List.replicate p.lCap 0
  a := 0
  b := 0
  d0 := 0
  d1 := 0
  bbase := 0
  res := .ok
  fault := false
  ovr := false
  busy := false
  keymem := []
  buf := []
  pending := []
  listing := []

/-- The state after reset (rules R40, R240). -/
def State.reset : State := State.resetWith Config.resetParams

end Sys2Proof.Machine
end

