-- ==== Sys2Proof/Machine/Operands.lean ====
section
/-! DEFINITION. Index arithmetic and the operand checks (rules R94, R131, R133): exact natural numbers, nothing wraps. -/

namespace Sys2Proof.Machine

/-- `2 * r + 2`, the number of round keys of a context of `r` rounds (rule R23). -/
def keyCount (r : Nat) : Nat := 2 * r + 2

/-- `T = 2 * NR + 2` of the live context (rules R23, R131). -/
def State.t (s : State) : Nat := keyCount s.nr.toNat

/-- `c = ceil(b / 4)`, the number of padded-key words of a key of `b` bytes (rules R131, R153). -/
def paddedCount (b : Nat) : Nat := (b + 3) / 4

/-- `num_steps = 3 * max(T, c)` (rule R155). -/
def mixCount (t c : Nat) : Nat := 3 * max t c

/-- The BUF index of word 0 of block `k` (rule R62). -/
def word0 (k : Nat) : Nat := 2 * k

/-- The BUF index of word 1 of block `k` (rule R62). -/
def word1 (k : Nat) : Nat := 2 * k + 1

/-- `BBASE` as a block index (rule R62). -/
def State.base (s : State) : Nat := s.bbase.toNat

/-- INIT's capacity check: the store can hold `2r + 2` words (rules R142, R204). -/
abbrev roundsFit (r : Nat) (s : State) : Prop := r ≤ s.params.roundsMax

/-- KEY's capacity check (rules R152, R204). -/
abbrev keyFits (b : Nat) (s : State) : Prop := b ≤ s.params.keyMaxBytes

/-- The block range lies in BUF, the sum taken without wrap-around (rules R178, R205). -/
abbrev blocksFit (n : Nat) (s : State) : Prop := s.base + n ≤ s.params.bufBlocks

end Sys2Proof.Machine
end

