-- ==== Sys2Proof/Machine/Ops.lean ====
section
/-! DEFINITION. The shared operations: reading and writing the memories and the stores, ending a command, and taking
a fault (rules R24, R25, R66 to R69, R90, R210). -/

namespace Sys2Proof.Machine

/-- The cell at index `a`; `none` where nothing has written it (rules R66, R67). -/
def Memory.read {w : Nat} : Memory w → Nat → Option (BitVec w)
  | [], _ => none
  | (k, x) :: rest, a => if k = a then some x else Memory.read rest a

/-- Write the cell at index `a`, keeping the indices strictly rising. -/
def Memory.write {w : Nat} : Memory w → Nat → BitVec w → Memory w
  | [], a, v => [(a, v)]
  | (k, x) :: rest, a, v =>
    if a < k then (a, v) :: (k, x) :: rest
    else if a = k then (a, v) :: rest
    else (k, x) :: Memory.write rest a v

/-- The canonical form: indices strictly rising. Every listed cell holds a value, so none of them reads as an
unlisted one does. -/
abbrev Memory.wf {w : Nat} (m : Memory w) : Prop := m.Pairwise (fun x y => x.1 < y.1)

/-- Every listed index is below `size`: the memory has no cell that does not exist (rule R60). -/
abbrev Memory.within {w : Nat} (m : Memory w) (size : Nat) : Prop := ∀ x ∈ m, x.1 < size

/-- Write `ws` into the first cells of a store, the others unchanged. -/
def overwrite {α : Type} (ws cells : List α) : List α := ws ++ cells.drop ws.length

/-- The first `n` cells of a store as words; `none` if one of them holds no value. -/
def definedWords : Nat → List (Option Word) → Option (List Word)
  | 0, _ => some []
  | n + 1, some x :: rest => (definedWords n rest).map (x :: ·)
  | _ + 1, _ => none

/-- The round-key array: the words `S[0] .. S[T - 1]` of the live context, where all of them hold one
(rules R23, R24). Without a context the array has no words (rule R39 (a)). -/
def State.roundKeys (s : State) : Option (List Word) :=
  if s.ctx = .empty then some [] else definedWords s.t s.sStore

/-- Word `i` of an array whose length a rule has fixed. No rule forms an index outside (rule R23), and the value
there is of no account (log entry 15). -/
def wordAt (ws : List Word) (i : Nat) : Word := ws.getD i 0

/-- `raise Fault(code)`: what taking a fault does, and the command does nothing more (rule R210). -/
def raiseFault (code : Result) (s : State) : State := { s with res := code, fault := true, busy := false }

/-- A command's normal end: `RES <- 0 ; BUSY <- 0` (rule R90). There is no return from a fault (rule R212): the next
command that ends overwrites `RES`, and `FAULT` stays. -/
def complete (s : State) : State := { s with res := .ok, busy := false }

end Sys2Proof.Machine
end

