-- ==== Sys2Proof/Machine/Cipher.lean ====
section
/-! DEFINITION. The ENC and DEC commands, the block encryptor and decryptor (rules R170 to R187). -/

namespace Sys2Proof.Machine

/-- Round `k` of encryption (rule R172): XOR, rotate by the other word, add the subkey; the second half-round sees
the new `d0`. -/
def encRound (ks : List Word) (k : Nat) (x : Block) : Block :=
  let d0 := add32 (rotl32 (xor32 x.d0 x.d1) (amt5 x.d1)) (wordAt ks (2 * k))
  let d1 := add32 (rotl32 (xor32 x.d1 d0) (amt5 d0)) (wordAt ks (2 * k + 1))
  { d0 := d0, d1 := d1 }

/-- Rounds `1 .. n` of encryption, in that order. -/
def encRounds (ks : List Word) : Nat → Block → Block
  | 0, x => x
  | n + 1, x => encRound ks (n + 1) (encRounds ks n x)

/-- `EncBlock` (rule R172). -/
def encBlock (ks : List Word) (rounds : Nat) (x : Block) : Block :=
  encRounds ks rounds { d0 := add32 x.d0 (wordAt ks 0), d1 := add32 x.d1 (wordAt ks 1) }

/-- Undo round `k` (rule R182): `d1` first, then `d0` with the restored `d1`. -/
def decRound (ks : List Word) (k : Nat) (x : Block) : Block :=
  let d1 := xor32 (rotr32 (sub32 x.d1 (wordAt ks (2 * k + 1))) (amt5 x.d0)) x.d0
  let d0 := xor32 (rotr32 (sub32 x.d0 (wordAt ks (2 * k))) (amt5 d1)) d1
  { d0 := d0, d1 := d1 }

/-- Undo rounds `n` down to 1. -/
def decRounds (ks : List Word) : Nat → Block → Block
  | 0, x => x
  | n + 1, x => decRounds ks n (decRound ks (n + 1) x)

/-- `DecBlock` (rule R182). -/
def decBlock (ks : List Word) (rounds : Nat) (x : Block) : Block :=
  let y := decRounds ks rounds x
  { d0 := sub32 y.d0 (wordAt ks 0), d1 := sub32 y.d1 (wordAt ks 1) }

/-- Block `k` of BUF, where both its words hold a value (rules R62, R67). -/
def readBlock (buf : Memory 32) (k : Nat) : Option Block :=
  match Memory.read buf (word0 k), Memory.read buf (word1 k) with
  | some d0, some d1 => some { d0 := d0, d1 := d1 }
  | _, _ => none

/-- Write both words of block `k` (rule R69). -/
def writeBlock (buf : Memory 32) (k : Nat) (x : Block) : Memory 32 :=
  Memory.write (Memory.write buf (word0 k) x.d0) (word1 k) x.d1

/-- Transform blocks `q .. q + n - 1` in place in increasing order, each finished before the next is read
(rule R72). `none` if a word to be read holds no value. -/
def transformBlocks (f : Block → Block) (q : Nat) : Nat → Memory 32 → Option (Memory 32)
  | 0, buf => some buf
  | n + 1, buf =>
    match transformBlocks f q n buf with
    | none => none
    | some buf' =>
      match readBlock buf' (q + n) with
      | none => none
      | some x => some (writeBlock buf' (q + n) (f x))

/-- The end of ENC and DEC: the transformed blocks are in BUF and `D0 <- 0 ; D1 <- 0` (rules R171, R181). -/
def storeBlocks (buf : Memory 32) (s : State) : State := { s with buf := buf, d0 := 0, d1 := 0 }

/-- The common shape of ENC and DEC (rules R171, R181): checks, then the block range. `f` takes the round keys,
the round count and a block. -/
def runCipher (f : List Word → Nat → Block → Block) (n : Nat) (s : State) : Answer :=
  match s.ctx with
  | .empty => .next (raiseFault .eState s)
  | .alloc => .next (raiseFault .eNokey s)
  | .keyed =>
    if ¬ blocksFit n s then .next (raiseFault .eBounds s)
    else
      match s.roundKeys with
      | none => .refused .undefinedRoundKey
      | some ks =>
        match transformBlocks (f ks s.nr.toNat) s.base n s.buf with
        | none => .refused .unwrittenBufWord
        | some buf => .next (complete (storeBlocks buf s))

/-- ENC (rule R171). -/
def execEnc (n : Nat) (s : State) : Answer := runCipher encBlock n s

/-- DEC (rule R181). -/
def execDec (n : Nat) (s : State) : Answer := runCipher decBlock n s

end Sys2Proof.Machine
end

