-- ==== Sys2Proof/Machine/KeySchedule.lean ====
section
/-! DEFINITION. The KEY command, the key-schedule expander (rules R150 to R162). -/

namespace Sys2Proof.Machine

/-- `P`, the first round-key seed (rule R5). -/
def seedP : Word := 0xB7E15163#32

/-- `Q`, the seed increment (rule R5). -/
def seedQ : Word := 0x9E3779B9#32

/-- Put key byte `a` into its lane of the padded key: bits `8 (a mod 4) + 7 : 8 (a mod 4)` of word `a / 4`
(rules R64, R153). -/
def addKeyByte (a : Nat) (v : Byte) (l : List Word) : List Word :=
  l.modify (a / 4) (fun x => add32 x (v.setWidth 32 <<< (8 * (a % 4))))

/-- Steps 1 and 2 (rule R153): `c` zero words, then key bytes `0 .. b - 1` of KEYMEM in increasing order, each read
once. `none` if one of them holds no value (rule R66). -/
def loadPaddedKey (keymem : Memory 8) (c : Nat) : Nat → Option (List Word)
  | 0 => some (List.replicate c 0)
  | a + 1 =>
    match loadPaddedKey keymem c a, Memory.read keymem a with
    | some l, some v => some (addKeyByte a v l)
    | _, _ => none

/-- `x, x + Q, x + 2Q, ...`: `n` words of the seed chain from `x`. -/
def seedChain (x : Word) : Nat → List Word
  | 0 => []
  | n + 1 => x :: seedChain (add32 x seedQ) n

/-- Step 3 (rule R154): the `T` seeds. -/
def seedKeys (t : Nat) : List Word := seedChain seedP t

/-- The working data of the mixing pass: `S`, `L`, `A` and `B` inside KEY (rules R23, R26, R28). -/
structure Mixing where
  s : List Word
  l : List Word
  a : Word
  b : Word
  deriving DecidableEq, Repr

/-- Mixing step `i` (rule R156). The second half uses the new `A` and the old `B`. -/
def mixStep (t c i : Nat) (m : Mixing) : Mixing :=
  let k := i % t
  let a1 := rotl32 (add32 (add32 (wordAt m.s k) m.a) m.b) 3
  let j := i % c
  let rot := amt5 (add32 a1 m.b)
  let b1 := rotl32 (add32 (add32 (wordAt m.l j) a1) m.b) rot
  { s := m.s.set k a1, l := m.l.set j b1, a := a1, b := b1 }

/-- Mixing steps `0 .. n - 1` in that order (rule R155). -/
def mixSteps (t c : Nat) : Nat → Mixing → Mixing
  | 0, m => m
  | n + 1, m => mixStep t c n (mixSteps t c n m)

/-- Steps 3 and 4: seed, clear the accumulators, mix (rules R154 to R156). -/
def mixedKey (t c : Nat) (l : List Word) : Mixing :=
  mixSteps t c (mixCount t c) { s := seedKeys t, l := l, a := 0, b := 0 }

/-- Step 5 and completion (rule R157): the round keys are in `S`, the `c` cells of `L` and the accumulators are
zero again, `CTX <- KEYED`. -/
def installKeys (c : Nat) (keys : List Word) (s : State) : State :=
  { s with
    sStore := overwrite (keys.map some) s.sStore
    lStore := overwrite (List.replicate c 0) s.lStore
    a := 0
    b := 0
    ctx := .keyed }

/-- KEY (rules R151, R152). -/
def execKey (b : Nat) (s : State) : Answer :=
  if s.ctx = .empty then .next (raiseFault .eState s)
  else if b = 0 then .next (raiseFault .eKeylen0 s)
  else if ¬ keyFits b s then .next (raiseFault .eAlloc s)
  else
    match loadPaddedKey s.keymem (paddedCount b) b with
    | none => .refused .unwrittenKeyByte
    | some l =>
      .next (complete (installKeys (paddedCount b) (mixedKey s.t (paddedCount b) l).s s))

end Sys2Proof.Machine
end

