-- ==== Sys2Proof/Machine/Lifecycle.lean ====
section
/-! DEFINITION. The commands that make and end a context: INIT (rules R140 to R143) and DESTROY (rules R190 to R194). -/

namespace Sys2Proof.Machine

/-- The live words of a new context hold no value (rules R24, R141). -/
def undefineKeys (t : Nat) (cells : List (Option Word)) : List (Option Word) :=
  overwrite (List.replicate t none) cells

/-- INIT's effect once its checks have passed: `NR <- r`, `S` is `2r + 2` undefined words, `CTX <- ALLOC`
(rule R141). -/
def claimContext (r : Nat) (s : State) : State :=
  { s with nr := BitVec.ofNat 8 r, sStore := undefineKeys (keyCount r) s.sStore, ctx := .alloc }

/-- INIT (rule R141). -/
def execInit (r : Nat) (s : State) : Answer :=
  if s.ctx ≠ .empty then .next (raiseFault .eState s)
  else if ¬ roundsFit r s then .next (raiseFault .eAlloc s)
  else .next (complete (claimContext r s))

/-- DESTROY's first half: every word of `S` is zero (rules R191, R192). -/
def scrubKeys (s : State) : State :=
  { s with sStore := overwrite (List.replicate s.t (some 0)) s.sStore }

/-- DESTROY's second half: the context is given up (rule R191). The physical cells stay, zero (rule R25). -/
def releaseContext (s : State) : State := { s with nr := 0, ctx := .empty }

/-- DESTROY (rule R191): zero first, release second (rule R190). -/
def execDestroy (s : State) : Answer :=
  if s.ctx = .empty then .next (raiseFault .eState s)
  else .next (complete (releaseContext (scrubKeys s)))

end Sys2Proof.Machine
end

