-- ==== Sys2Proof/Machine/Dispatch.lean ====
section
/-! DEFINITION. One arm per command (rule R90). -/

namespace Sys2Proof.Machine

def exec (i : Instr) (s : State) : Host.Outcome State Fault Refusal :=
  match i with
  | .init r => Sys2Proof.Machine.execInit r s
  | .key b => Sys2Proof.Machine.execKey b s
  | .enc n => Sys2Proof.Machine.execEnc n s
  | .dec n => Sys2Proof.Machine.execDec n s
  | .destroy => Sys2Proof.Machine.execDestroy s

end Sys2Proof.Machine
end

