-- ==== Sys2Proof/Machine/Flags.lean ====
section
/-! DEFINITION. The status fields and the word a read of `STATUS` returns (rule R34). There are no arithmetic flags
(rule R31). -/

namespace Sys2Proof.Machine

/-- The code of `CTX` in `STATUS[2:1]` (rule R21). -/
def ctxCode : Ctx → BitVec 2
  | .empty => 0
  | .alloc => 1
  | .keyed => 2

/-- The code of `RES` in `STATUS[7:4]` (rule R200). -/
def resCode : Result → BitVec 4
  | .ok => 0
  | .eIllcmd => 1
  | .eState => 2
  | .eNokey => 3
  | .eAlloc => 4
  | .eKeylen0 => 5
  | .eBounds => 6

/-- What a read of `STATUS` returns, from bit 31 down to bit 0 (rule R34). -/
def statusWord (s : State) : Word :=
  0#15 ++ BitVec.ofBool s.ovr ++ s.nr ++ resCode s.res ++ BitVec.ofBool s.fault ++ ctxCode s.ctx ++
    BitVec.ofBool s.busy

/-- A write to `CMD` or `BBASE` while `BUSY = 1` is dropped: it changes nothing but `OVR` and `FAULT`
(rules R33, R35, R216). -/
def dropWrite (s : State) : State := { s with ovr := true, fault := true }

end Sys2Proof.Machine
end

