-- ==== Sys2Proof/Machine/Port.lean ====
section
/-! DEFINITION. The host's moves on the port, on KEYMEM and on BUF, and reset (rules R33 to R36, R75 to R78, R90,
R240). -/

namespace Sys2Proof.Machine

/-- Execute the command word `w` (rule R90): `BUSY <- 1`, decode, and run the command's rule or raise `E_ILLCMD`. -/
def acceptCommand (w : Word) (s : State) : Answer :=
  let s1 := { s with busy := true }
  match decode w with
  | .error _ => .next (raiseFault .eIllcmd s1)
  | .ok i => exec i s1

/-- `HostWriteReg` (rules R33 to R35, R77). Bits 31:16 of a word written to `BBASE` are ignored; a write to `STATUS`
does nothing. -/
def hostWriteReg (r : Reg) (w : Word) (s : State) : Answer :=
  match r with
  | .cmd => if s.busy then .next (dropWrite s) else acceptCommand w s
  | .status => .next s
  | .bbase => if s.busy then .next (dropWrite s) else .next { s with bbase := w.extractLsb' 0 16 }

/-- The word a read of a register returns (rules R33 to R35, R77). -/
def readReg (r : Reg) (s : State) : Word :=
  match r with
  | .cmd => 0
  | .status => statusWord s
  | .bbase => s.bbase.setWidth 32

/-- A host read's value goes to the listing and changes nothing else (rules R69, R99). -/
def answer (x : HostAnswer) (s : State) : State := { s with listing := s.listing ++ [x] }

/-- A host move on KEYMEM byte `a`, which must exist, between commands (rules R75, R78). -/
def onKeyByte (a : Nat) (s : State) (t : State) : Answer :=
  if s.busy then .fault .memoryRace
  else if a < s.params.keyMaxBytes then .next t
  else .fault (.noSuchKeyByte a)

/-- A host move on BUF word `j`, which must exist, between commands (rules R76, R78). -/
def onBufWord (j : Nat) (s : State) (t : State) : Answer :=
  if s.busy then .fault .memoryRace
  else if j < s.params.bufWords then .next t
  else .fault (.noSuchBufWord j)

/-- `HostReset` (rule R240). The cells of KEYMEM and BUF hold no value until the host writes them again
(rules R40, R66, R67; log entry 7); the parameters and the host's own lists are not the engine's. -/
def hostReset (s : State) : State :=
  { State.resetWith s.params with pending := s.pending, listing := s.listing }

/-- Perform one host move. -/
def hostMove (m : HostMove) (s : State) : Answer :=
  match m with
  | .writeReg r w => hostWriteReg r w s
  | .readReg r => .next (answer (.reg r (readReg r s)) s)
  | .writeKey a v => onKeyByte a s { s with keymem := Memory.write s.keymem a v }
  | .readKey a => onKeyByte a s (answer (.key a (Memory.read s.keymem a)) s)
  | .writeBuf j v => onBufWord j s { s with buf := Memory.write s.buf j v }
  | .readBuf j => onBufWord j s (answer (.buf j (Memory.read s.buf j)) s)
  | .reset => .next (hostReset s)

end Sys2Proof.Machine
end

