-- ==== Sys2Proof/Machine/Step.lean ====
section
/-! DEFINITION. One step: the host's next move (rules R7, R30, R244). -/

namespace Sys2Proof.Machine

/-- Take the host's next move. With no move left the run is over and the engine idles, keeping all its state
(rules R227, R244). -/
def step (s : State) : Host.Outcome State Fault Refusal :=
  match s.pending with
  | [] => .next s
  | m :: rest => hostMove m { s with pending := rest }

/-- The host's next move issues the command word `w`: it stands before the moves that were pending, and the engine is
ready for it, `BUSY = 0` (rules R30, R33; log entry 3). -/
def State.withFetchWord (s : State) (nbits w : Nat) : State :=
  { s with pending := .writeReg .cmd (tableWord nbits w) :: s.pending, busy := false }

end Sys2Proof.Machine
end

