-- ==== Sys2Proof/Machine/Assembly.lean ====
section
/-! DEFINITION. The spec's assembly lines and what each expands to (rules R98, R99). No step reads this file: it says
which host moves a program written in that notation means. -/

namespace Sys2Proof.Machine

/-- One line of a program. -/
inductive AsmLine where
  /-- A command mnemonic with its operand (rule R98, which defines operands up to 65535: `Instr.WellFormed`). -/
  | command (i : Instr)
  /-- `.word x` (rule R98). -/
  | word (x : Word)
  /-- `SETBASE q` (rule R99). -/
  | setBase (q : Word)
  /-- `LDKEY v0 v1 ...` (rule R99). -/
  | ldKey (vs : List Byte)
  /-- `LDKEY "text"` (rule R99). -/
  | ldKeyText (text : String)
  /-- `LDBUF j: x0 x1 ...` (rule R99). -/
  | ldBuf (j : Nat) (xs : List Word)
  /-- `RDBUF j, m` (rule R99). -/
  | rdBuf (j m : Nat)
  /-- `RDSTATUS` (rule R99). -/
  | rdStatus
  /-- `RESET` (rule R99). -/
  | reset
  deriving DecidableEq, Repr

/-- Writes of `vs` to KEYMEM from byte `a` on, in order. -/
def keyWrites : Nat → List Byte → List HostMove
  | _, [] => []
  | a, v :: vs => .writeKey a v :: keyWrites (a + 1) vs

/-- Writes of `xs` to BUF from word `j` on, in order. -/
def bufWrites : Nat → List Word → List HostMove
  | _, [] => []
  | j, x :: xs => .writeBuf j x :: bufWrites (j + 1) xs

/-- Reads of `m` words of BUF from word `j` on, in order. -/
def bufReads : Nat → Nat → List HostMove
  | _, 0 => []
  | j, m + 1 => .readBuf j :: bufReads (j + 1) m

/-- The ASCII codes of the characters of a text (rule R99). For a character that is not ASCII, of which rule R99 says
nothing, the low 8 bits of its code are the model's own. DESIGN CHOICE: log entry 22. -/
def asciiBytes (text : String) : List Byte := text.toList.map (fun c => BitVec.ofNat 8 c.toNat)

/-- The host moves a line means (rules R98, R99). For a command whose operand is above 65535, which rule R98 does not
define, the word is the model's own (`encode`). DESIGN CHOICE, unsafe for a claim about such a line: log entry 23. -/
def assemble : AsmLine → List HostMove
  | .command i => [.writeReg .cmd (encode i)]
  | .word x => [.writeReg .cmd x]
  | .setBase q => [.writeReg .bbase q]
  | .ldKey vs => keyWrites 0 vs
  | .ldKeyText text => keyWrites 0 (asciiBytes text)
  | .ldBuf j xs => bufWrites j xs
  | .rdBuf j m => bufReads j m
  | .rdStatus => [.readReg .status]
  | .reset => [.reset]

end Sys2Proof.Machine
end

