-- ==== Sys2Proof/Safety.lean ====
section
/-! DEFINITION. The invariant at every command boundary (rules R25, R39) and what the host cannot read (rule R37). -/

namespace Sys2Proof.Machine

/-- What holds between host moves: rule R39 (a) to (g), the store sizes of rules R25 and R28, the canonical form of
the two memories, and the parameters' legal ranges (rule R6). -/
structure State.Inv (s : State) : Prop where
  /-- The parameters are in their legal ranges. -/
  paramsLegal : s.params.Legal
  /-- The round-key store has `S_CAP` cells. -/
  sSize : s.sStore.length = s.params.sCap
  /-- The padded-key buffer has `L_CAP` cells. -/
  lSize : s.lStore.length = s.params.lCap
  /-- (a) without a context `NR` is 0 and every physical cell of `S` is zero. -/
  emptyScrubbed : s.ctx = .empty → s.nr = 0 ∧ ∀ x ∈ s.sStore, x = some 0
  /-- (b) the round count is within the capacity. -/
  roundsFit : s.nr.toNat ≤ s.params.roundsMax
  /-- (c) in `ALLOC` no live word is defined. -/
  allocUndefined : s.ctx = .alloc → ∀ x ∈ s.sStore.take s.t, x = none
  /-- (c) in `KEYED` every live word is defined. -/
  keyedDefined : s.ctx = .keyed → ∀ x ∈ s.sStore.take s.t, x.isSome
  /-- The cells at and above `T` are zero. -/
  restZero : ∀ x ∈ s.sStore.drop s.t, x = some 0
  /-- (d) the transient registers are zero. -/
  transientsZero : s.a = 0 ∧ s.b = 0 ∧ s.d0 = 0 ∧ s.d1 = 0
  /-- (d) every cell of `L` is zero. -/
  lZero : ∀ x ∈ s.lStore, x = 0
  /-- (e) no command is running. -/
  idle : s.busy = false
  /-- (f) a result other than `OK`, or a dropped write, has set `FAULT`. -/
  faultSet : s.res ≠ .ok ∨ s.ovr = true → s.fault = true
  /-- KEYMEM is in canonical form and lists only bytes that exist. -/
  keymemOk : Memory.wf s.keymem ∧ Memory.within s.keymem s.params.keyMaxBytes
  /-- BUF is in canonical form and lists only words that exist. -/
  bufOk : Memory.wf s.buf ∧ Memory.within s.buf s.params.bufWords

/-- The state with `S`, `L`, `A`, `B`, `D0` and `D1` blanked out: everything but what the host has no read path to
(rule R37). -/
def State.hideSecrets (s : State) : State :=
  { s with sStore := [], lStore := [], a := 0, b := 0, d0 := 0, d1 := 0 }

end Sys2Proof.Machine
end

