-- ==== Sys2Proof/Certificates/Slice0/Obligations.lean ====
section
/-! DEFINITION. The statements for the provers. Record updates name every field an event writes, so each of them is the
event's result and its frame at once. -/

open Sys2Proof Sys2Proof.Machine

/-! ## Encoding -/

/-- R100: `decode(encode(op, n)) = (op, n)` for every legal pair, `encode(decode(w)) = w` for every legal `w`, and
`encode(op, n) = code(op) * 2^28 + n`. -/
def Obligations.DecodeEncodeRoundTrip : Prop :=
  (∀ i : Instr, i.WellFormed →
    (encode i).toNat = i.opcode * 2 ^ 28 + i.operand ∧ decode (encode i) = .ok i) ∧
  (∀ (w : Word) (i : Instr), decode w = .ok i → i.WellFormed ∧ encode i = w)

/-- 30_encoding.md section 4 (rule R95): a word selects a command exactly when `w AND mask = match`, and no word
matches two rows. -/
def Obligations.DecodeSelectsByMaskAndMatch : Prop :=
  ∀ (w : Word) (n : Nat),
    (decode w = .ok (.init n) ↔ w &&& 0xFFFF0000#32 = 0x10000000#32 ∧ n = w.toNat % 65536) ∧
    (decode w = .ok (.key n) ↔ w &&& 0xFFFF0000#32 = 0x20000000#32 ∧ n = w.toNat % 65536) ∧
    (decode w = .ok (.enc n) ↔ w &&& 0xFFFF0000#32 = 0x30000000#32 ∧ n = w.toNat % 65536) ∧
    (decode w = .ok (.dec n) ↔ w &&& 0xFFFF0000#32 = 0x40000000#32 ∧ n = w.toNat % 65536) ∧
    (decode w = .ok .destroy ↔ w &&& 0xFFFFFFFF#32 = 0x50000000#32) ∧
    opcodeRows.Pairwise (fun r1 r2 => ¬ (selectsRow w r1 ∧ selectsRow w r2))

/-- 30_encoding.md section 4 (rule R95): the legal words number `4 * 65536 + 1`. -/
def Obligations.LegalWordCount : Prop :=
  Nat.card { w : Word // ∃ i, decode w = .ok i } = 4 * 65536 + 1

/-- R96, R202: exactly which words are illegal, and that an illegal word faults `E_ILLCMD` in every state. -/
def Obligations.IllegalWordsFaultInEveryState : Prop :=
  ∀ w : Word,
    ((∃ e, decode w = .error e) ↔
      (w.toNat / 2 ^ 28 = 0 ∨ 6 ≤ w.toNat / 2 ^ 28) ∨ w.toNat / 2 ^ 16 % 2 ^ 12 ≠ 0 ∨
        (w.toNat / 2 ^ 28 = 5 ∧ w.toNat % 2 ^ 16 ≠ 0)) ∧
    ((∃ e, decode w = .error e) → ∀ (s : State) (rest : List HostMove),
      s.busy = false → s.pending = .writeReg .cmd w :: rest →
      step s = .next { s with pending := rest, res := .eIllcmd, fault := true, busy := false })

/-- 95_test_vectors.md section 2.7: a few words of its table, each written out in bits from rule R92. -/
def Obligations.SampleWordsDecode : Prop :=
  decode 0b00010000000000000000000000001010#32 = .ok (.init 10) ∧
  decode 0b00100000000000000000000000000101#32 = .ok (.key 5) ∧
  decode 0b00110000000000000000000000000100#32 = .ok (.enc 4) ∧
  decode 0b01000000000000000000000000000010#32 = .ok (.dec 2) ∧
  decode 0b01010000000000000000000000000000#32 = .ok .destroy ∧
  decode 0b00110000000000010000000000000001#32 = .error .reservedNotZero ∧
  decode 0b01010000000000000000000000000001#32 = .error .destroyOperand

/-! ## The step and the host's moves -/

/-- 30_encoding.md section 1 (rule R90): a step whose next host move writes a word that decodes to `i` is `exec i`,
after the move is taken and with `BUSY = 1`. The second clause is about the model's choice of log entry 19 and is no rule
of the spec: from a state that `withFetchWord` prepared, which puts the write in front of the pending moves and sets `BUSY`
to 0, the step runs that same command. -/
def Obligations.StepRunsDecodedCommand : Prop :=
  (∀ (s : State) (w : Word) (i : Instr) (rest : List HostMove),
    s.busy = false → s.pending = .writeReg .cmd w :: rest → decode w = .ok i →
    step s = exec i { s with pending := rest, busy := true }) ∧
  (∀ (s : State) (nbits w : Nat) (i : Instr),
    decodeTableWord nbits w = some i → step (s.withFetchWord nbits w) = exec i { s with busy := true })

/-- 60_exceptions.md section 7 (rule R227) and 70_reset_and_hazards.md section 2 (rule R244): with no move left the
engine is idle and keeps all its state. That the model's step then answers the same state is log entry 3. -/
def Obligations.StepIdlesWithoutMoves : Prop :=
  ∀ s : State, s.pending = [] → step s = .next s

/-- R33: a write of `CMD` while `BUSY = 0` decodes and executes the word, a write while `BUSY = 1` changes nothing but
`OVR` and `FAULT`, and a read returns 0. -/
def Obligations.CmdRegister : Prop :=
  ∀ (s : State) (w : Word) (rest : List HostMove),
    (s.pending = .writeReg .cmd w :: rest → s.busy = false →
      step s = match decode w with
        | .ok i => exec i { s with pending := rest, busy := true }
        | .error _ => .next { s with pending := rest, res := .eIllcmd, fault := true, busy := false }) ∧
    (s.pending = .writeReg .cmd w :: rest → s.busy = true →
      step s = .next { s with pending := rest, ovr := true, fault := true }) ∧
    (s.pending = .readReg .cmd :: rest →
      step s = .next { s with pending := rest, listing := s.listing ++ [.reg .cmd 0x00000000#32] })

/-- R35: a write of `BBASE` while `BUSY = 0` stores bits 15:0, while `BUSY = 1` it is dropped, a read zero-extends, no
command writes it, and reset leaves 0. -/
def Obligations.BbaseRegister : Prop :=
  (∀ (s : State) (w : Word) (rest : List HostMove),
    (s.pending = .writeReg .bbase w :: rest → s.busy = false →
      step s = .next { s with pending := rest, bbase := BitVec.ofNat 16 (w.toNat % 2 ^ 16) }) ∧
    (s.pending = .writeReg .bbase w :: rest → s.busy = true →
      step s = .next { s with pending := rest, ovr := true, fault := true }) ∧
    (s.pending = .readReg .bbase :: rest →
      step s = .next
        { s with pending := rest, listing := s.listing ++ [.reg .bbase (BitVec.ofNat 32 s.bbase.toNat)] })) ∧
  (∀ (i : Instr) (s t : State), exec i s = .next t → t.bbase = s.bbase) ∧
  State.reset.bbase = 0

/-- 10_state.md section 5 (rule R34): the bits of `STATUS`, that reading it changes nothing but the host's listing, and
that writing it does nothing. -/
def Obligations.StatusRegister : Prop :=
  ∀ (s : State),
    ((statusWord s).getLsbD 0 = s.busy ∧
      (statusWord s).toNat / 2 % 4 = (match s.ctx with | .empty => 0 | .alloc => 1 | .keyed => 2) ∧
      (statusWord s).getLsbD 3 = s.fault ∧
      (statusWord s).toNat / 16 % 16 =
        (match s.res with
          | .ok => 0 | .eIllcmd => 1 | .eState => 2 | .eNokey => 3 | .eAlloc => 4 | .eKeylen0 => 5 | .eBounds => 6) ∧
      (statusWord s).toNat / 256 % 256 = s.nr.toNat ∧
      (statusWord s).getLsbD 16 = s.ovr ∧
      (statusWord s).toNat / 2 ^ 17 = 0) ∧
    ∀ (w : Word) (rest : List HostMove),
      (s.pending = .readReg .status :: rest →
        step s = .next { s with pending := rest, listing := s.listing ++ [.reg .status (statusWord s)] }) ∧
      (s.pending = .writeReg .status w :: rest → step s = .next { s with pending := rest })

/-- R75: `HostWriteKey` sets byte `a`, `HostReadKey` returns the value the byte holds, and neither changes any engine
state. A byte that holds no value is `UnwrittenReadsAnswerNone`'s. -/
def Obligations.HostMovesOnKeymem : Prop :=
  ∀ (s : State) (a : Nat) (v : Byte) (rest : List HostMove), s.busy = false → a < s.params.keyMaxBytes →
    (s.pending = .writeKey a v :: rest →
      ∃ m, step s = .next { s with pending := rest, keymem := m } ∧ Memory.read m a = some v ∧
        ∀ j, j ≠ a → Memory.read m j = Memory.read s.keymem j) ∧
    (∀ x, s.pending = .readKey a :: rest → Memory.read s.keymem a = some x →
      step s = .next { s with pending := rest, listing := s.listing ++ [.key a (some x)] })

/-- R76: `HostWriteBuf` sets word `j`, `HostReadBuf` returns the value the word holds, and neither changes any engine
state. A word that holds no value is `UnwrittenReadsAnswerNone`'s. -/
def Obligations.HostMovesOnBuf : Prop :=
  ∀ (s : State) (j : Nat) (v : Word) (rest : List HostMove), s.busy = false → j < 2 * s.params.bufBlocks →
    (s.pending = .writeBuf j v :: rest →
      ∃ m, step s = .next { s with pending := rest, buf := m } ∧ Memory.read m j = some v ∧
        ∀ k, k ≠ j → Memory.read m k = Memory.read s.buf k) ∧
    (∀ x, s.pending = .readBuf j :: rest → Memory.read s.buf j = some x →
      step s = .next { s with pending := rest, listing := s.listing ++ [.buf j (some x)] })

/-- The model's choice (log entry 6) beside 20_memory.md section 3: a host read of a cell that exists and holds no value
puts `none` on the listing and changes nothing else. -/
def Obligations.UnwrittenReadsAnswerNone : Prop :=
  ∀ (s : State) (a : Nat) (rest : List HostMove), s.busy = false →
    (s.pending = .readKey a :: rest → a < s.params.keyMaxBytes → Memory.read s.keymem a = none →
      step s = .next { s with pending := rest, listing := s.listing ++ [.key a none] }) ∧
    (s.pending = .readBuf a :: rest → a < 2 * s.params.bufBlocks → Memory.read s.buf a = none →
      step s = .next { s with pending := rest, listing := s.listing ++ [.buf a none] })

/-- The model's choice (log entries 11, 12) beside 20_memory.md section 6: a host move on a cell that does not exist,
and any host access to the memories while `BUSY = 1`, faults. -/
def Obligations.MissingOrBusyCellsFault : Prop :=
  ∀ (s : State) (a : Nat) (v : Byte) (x : Word) (rest : List HostMove),
    (s.pending = .writeKey a v :: rest ∨ s.pending = .readKey a :: rest →
      (s.busy = true → step s = .fault .memoryRace) ∧
      (s.busy = false → s.params.keyMaxBytes ≤ a → step s = .fault (.noSuchKeyByte a))) ∧
    (s.pending = .writeBuf a x :: rest ∨ s.pending = .readBuf a :: rest →
      (s.busy = true → step s = .fault .memoryRace) ∧
      (s.busy = false → 2 * s.params.bufBlocks ≤ a → step s = .fault (.noSuchBufWord a)))

/-- 70_reset_and_hazards.md section 1 (rule R240): the value `HostReset` gives every piece of state. That no cell of
KEYMEM and BUF holds a value afterwards is the model's reading of rules R40, R66 and R67 (log entry 7). -/
def Obligations.HostResetRestoresResetValues : Prop :=
  ∀ (s : State) (rest : List HostMove), s.pending = .reset :: rest →
    step s = .next
      { s with
        pending := rest, ctx := .empty, nr := 0
        sStore := List.replicate (2 * s.params.roundsMax + 2) (some 0)
        lStore := List.replicate ((s.params.keyMaxBytes + 3) / 4) 0
        a := 0, b := 0, d0 := 0, d1 := 0, bbase := 0, res := .ok, fault := false, ovr := false, busy := false
        keymem := [], buf := [] }

/-- R40: the state after reset. -/
def Obligations.ResetValues : Prop :=
  State.reset.ctx = .empty ∧ State.reset.nr = 0 ∧
  State.reset.sStore = List.replicate (2 * State.reset.params.roundsMax + 2) (some 0) ∧
  State.reset.roundKeys = some [] ∧
  State.reset.lStore = List.replicate ((State.reset.params.keyMaxBytes + 3) / 4) 0 ∧
  State.reset.a = 0 ∧ State.reset.b = 0 ∧ State.reset.d0 = 0 ∧ State.reset.d1 = 0 ∧
  State.reset.bbase = 0 ∧ State.reset.res = .ok ∧
  State.reset.fault = false ∧ State.reset.ovr = false ∧ State.reset.busy = false ∧
  (∀ a, Memory.read State.reset.keymem a = none) ∧ (∀ j, Memory.read State.reset.buf j = none)

/-- 30_encoding.md section 7 (rule R99): the moves of an `LDKEY` line, run to the end, put its bytes into KEYMEM from
byte 0 on and change nothing else. -/
def Obligations.LdkeyLoadsItsBytes : Prop :=
  ∀ (vs : List Byte) (s : State), s.busy = false → vs.length ≤ s.params.keyMaxBytes →
    s.pending = assemble (.ldKey vs) →
    ∃ m, core.run vs.length s = .next { s with pending := [], keymem := m } ∧
      (∀ a, a < vs.length → Memory.read m a = vs[a]?) ∧
      (∀ a, vs.length ≤ a → Memory.read m a = Memory.read s.keymem a)

/-! ## Faults -/

/-- R203 to R207: what each command reports when a check fails, the first failing check of the fixed order deciding. -/
def Obligations.FirstFailingCheckIsReported : Prop :=
  ∀ s : State,
    (∀ w, (∃ e, decode w = .error e) →
      acceptCommand w s = .next { s with res := .eIllcmd, fault := true, busy := false }) ∧
    (∀ r,
      (s.ctx ≠ .empty → exec (.init r) s = .next { s with res := .eState, fault := true, busy := false }) ∧
      (s.ctx = .empty → s.params.roundsMax < r →
        exec (.init r) s = .next { s with res := .eAlloc, fault := true, busy := false })) ∧
    (∀ b,
      (s.ctx = .empty → exec (.key b) s = .next { s with res := .eState, fault := true, busy := false }) ∧
      (s.ctx ≠ .empty → b = 0 →
        exec (.key b) s = .next { s with res := .eKeylen0, fault := true, busy := false }) ∧
      (s.ctx ≠ .empty → b ≠ 0 → s.params.keyMaxBytes < b →
        exec (.key b) s = .next { s with res := .eAlloc, fault := true, busy := false })) ∧
    (∀ n i, i = .enc n ∨ i = .dec n →
      (s.ctx = .empty → exec i s = .next { s with res := .eState, fault := true, busy := false }) ∧
      (s.ctx = .alloc → exec i s = .next { s with res := .eNokey, fault := true, busy := false }) ∧
      (s.ctx = .keyed → s.params.bufBlocks < s.bbase.toNat + n →
        exec i s = .next { s with res := .eBounds, fault := true, busy := false })) ∧
    (s.ctx = .empty → exec .destroy s = .next { s with res := .eState, fault := true, busy := false })

/-- R210: a command that ends in a fault, and an illegal word, change `RES`, `FAULT` and `BUSY` and nothing else. -/
def Obligations.FaultChangesOnlyTheStatus : Prop :=
  (∀ (i : Instr) (s t : State), exec i s = .next t → t.res ≠ .ok →
    t = { s with res := t.res, fault := true, busy := false }) ∧
  (∀ (w : Word) (s t : State), acceptCommand w s = .next t → t.res ≠ .ok →
    t = { s with res := t.res, fault := true, busy := false })

/-- R212: `FAULT` and `OVR` stay set until reset clears them, and the end of a command overwrites `RES`, whatever it
was: with 0 if it completes, and with a code, which sets `FAULT`, if it faults. -/
def Obligations.StickyBitsLastUntilReset : Prop :=
  (∀ s t : State, step s = .next t → (∀ rest, s.pending ≠ .reset :: rest) →
    (s.fault = true → t.fault = true) ∧ (s.ovr = true → t.ovr = true)) ∧
  (∀ (s t : State) (rest : List HostMove), step s = .next t → s.pending = .reset :: rest →
    t.fault = false ∧ t.ovr = false) ∧
  (∀ (i : Instr) (s : State) (c : Result), exec i { s with res := c } = exec i s) ∧
  (∀ (i : Instr) (s t : State), exec i s = .next t → t.res = .ok ∨ (t.res ≠ .ok ∧ t.fault = true))

/-- R214: no command and no command word, legal or not, halts the engine; after any fault, an illegal word's among them,
the same command or word faults the same way, and every other one does what it would have done before, but for the sticky
`FAULT`. -/
def Obligations.EngineWorksAfterAFault : Prop :=
  (∀ (i : Instr) (s : State) (f : Fault), exec i s ≠ .fault f) ∧
  (∀ (w : Word) (s : State) (f : Fault), acceptCommand w s ≠ .fault f) ∧
  (∀ (i : Instr) (s t : State), exec i s = .next t → t.res ≠ .ok →
    exec i t = .next t ∧
    ∀ (j : Instr) (u : State), exec j s = .next u → exec j t = .next { u with fault := true }) ∧
  (∀ (w : Word) (s t : State), acceptCommand w s = .next t → t.res ≠ .ok →
    acceptCommand w t = .next t ∧
    (∀ (j : Instr) (u : State), exec j s = .next u → exec j t = .next { u with fault := true }) ∧
    ∀ (v : Word) (u : State), acceptCommand v s = .next u → acceptCommand v t = .next { u with fault := true })

/-! ## The lifecycle -/

/-- R38: the lifecycle table. The hypothesis on the operand is the table's own ("its operand is in range"). -/
def Obligations.LifecycleTable : Prop :=
  ∀ (i : Instr) (s t : State),
    (match i with
      | .init r => r ≤ s.params.roundsMax
      | .key b => 1 ≤ b ∧ b ≤ s.params.keyMaxBytes
      | .enc n => s.bbase.toNat + n ≤ s.params.bufBlocks
      | .dec n => s.bbase.toNat + n ≤ s.params.bufBlocks
      | .destroy => True) →
    exec i s = .next t →
    (t.res, t.ctx) =
      match i, s.ctx with
      | .init _, .empty => (.ok, .alloc)
      | .init _, .alloc => (.eState, .alloc)
      | .init _, .keyed => (.eState, .keyed)
      | .key _, .empty => (.eState, .empty)
      | .key _, .alloc => (.ok, .keyed)
      | .key _, .keyed => (.ok, .keyed)
      | .enc _, .empty => (.eState, .empty)
      | .enc _, .alloc => (.eNokey, .alloc)
      | .enc _, .keyed => (.ok, .keyed)
      | .dec _, .empty => (.eState, .empty)
      | .dec _, .alloc => (.eNokey, .alloc)
      | .dec _, .keyed => (.ok, .keyed)
      | .destroy, .empty => (.eState, .empty)
      | .destroy, .alloc => (.ok, .empty)
      | .destroy, .keyed => (.ok, .empty)

/-- 10_state.md and 20_memory.md (rules R22, R35, R61, R177): what no command writes, and which commands alone write
`NR`, `S` and BUF. -/
def Obligations.WhatCommandsNeverWrite : Prop :=
  ∀ (i : Instr) (s t : State), exec i s = .next t →
    t.params = s.params ∧ t.bbase = s.bbase ∧ t.keymem = s.keymem ∧ t.ovr = s.ovr ∧ t.pending = s.pending ∧
    t.listing = s.listing ∧ t.busy = false ∧ (s.fault = true → t.fault = true) ∧
    (t.nr ≠ s.nr → (∃ r, i = .init r) ∨ i = .destroy) ∧
    (t.sStore ≠ s.sStore → (∃ r, i = .init r) ∨ (∃ b, i = .key b) ∨ i = .destroy) ∧
    (t.buf ≠ s.buf → ∃ n, i = .enc n ∨ i = .dec n)

/-! ## INIT and DESTROY -/

/-- R141: INIT, whole: its word, its two faults, its effect and all it leaves alone. -/
def Obligations.InitClaimsAContext : Prop :=
  ∀ (r : Nat) (s : State),
    (r ≤ 65535 → (encode (.init r)).toNat = 0x10000000 + r) ∧
    (s.ctx ≠ .empty → exec (.init r) s = .next { s with res := .eState, fault := true, busy := false }) ∧
    (s.ctx = .empty → s.params.roundsMax < r →
      exec (.init r) s = .next { s with res := .eAlloc, fault := true, busy := false }) ∧
    (s.ctx = .empty → r ≤ s.params.roundsMax →
      exec (.init r) s = .next
        { s with
          nr := BitVec.ofNat 8 r
          sStore := List.replicate (2 * r + 2) none ++ s.sStore.drop (2 * r + 2)
          ctx := .alloc, res := .ok, busy := false })

/-- R143: `STATUS` after a successful INIT. -/
def Obligations.StatusAfterInit : Prop :=
  ∀ (r : Nat) (s : State), s.params.Legal → s.ctx = .empty → r ≤ s.params.roundsMax →
    ∃ t, exec (.init r) s = .next t ∧ t.busy = false ∧ t.ctx = .alloc ∧ t.res = .ok ∧ t.nr.toNat = r ∧
      t.fault = s.fault ∧ t.ovr = s.ovr ∧
      (s.fault = false → s.ovr = false → (statusWord t).toNat = r * 2 ^ 8 + 2)

/-- R191: DESTROY, whole: its word, its fault, the scrub of every live word, the release, and all it leaves alone. -/
def Obligations.DestroyScrubsAndReleases : Prop :=
  ∀ s : State,
    encode .destroy = 0x50000000#32 ∧
    (s.ctx = .empty → exec .destroy s = .next { s with res := .eState, fault := true, busy := false }) ∧
    (s.ctx ≠ .empty →
      exec .destroy s = .next
        { s with
          sStore := List.replicate (2 * s.nr.toNat + 2) (some 0) ++ s.sStore.drop (2 * s.nr.toNat + 2)
          nr := 0, ctx := .empty, res := .ok, busy := false })

/-- 45_destroy.md (rule R193): after DESTROY every command but INIT faults `E_STATE`, and INIT starts a context whose
store has nothing of the old one. -/
def Obligations.AfterDestroyOnlyInitRuns : Prop :=
  ∀ s t : State, s.Inv → s.ctx ≠ .empty → exec .destroy s = .next t →
    (∀ i, (∀ r, i ≠ .init r) → exec i t = .next { t with res := .eState, fault := true }) ∧
    (∀ r, r ≤ s.params.roundsMax →
      ∃ u, exec (.init r) t = .next u ∧ u.res = .ok ∧ u.ctx = .alloc ∧ u.buf = s.buf ∧
        u.sStore =
          List.replicate (2 * r + 2) none ++ List.replicate (2 * s.params.roundsMax + 2 - (2 * r + 2)) (some 0))

/-! ## KEY -/

/-- 42_key_schedule.md (rules R151, R152, R157): KEY's word, its three faults, and its effect with all it leaves alone.
The schedule is the mixing pass over the seeds and the padded key, which `MixingPassInOrder`, `SeedsClosedForm`,
`PaddedKeyIsLittleEndian` and `MixingStep` say in the spec's own terms. -/
def Obligations.KeyDerivesTheSchedule : Prop :=
  ∀ (b : Nat) (s : State),
    (b ≤ 65535 → (encode (.key b)).toNat = 0x20000000 + b) ∧
    (s.ctx = .empty → exec (.key b) s = .next { s with res := .eState, fault := true, busy := false }) ∧
    (s.ctx ≠ .empty → b = 0 → exec (.key b) s = .next { s with res := .eKeylen0, fault := true, busy := false }) ∧
    (s.ctx ≠ .empty → s.params.keyMaxBytes < b → b ≠ 0 →
      exec (.key b) s = .next { s with res := .eAlloc, fault := true, busy := false }) ∧
    (s.ctx ≠ .empty → 1 ≤ b → b ≤ s.params.keyMaxBytes →
      (∀ a, a < b → (Memory.read s.keymem a).isSome = true) →
      ∃ l ks,
        loadPaddedKey s.keymem ((b + 3) / 4) b = some l ∧
        ks = (mixedKey (2 * s.nr.toNat + 2) ((b + 3) / 4) l).s ∧ ks.length = 2 * s.nr.toNat + 2 ∧
        exec (.key b) s = .next
          { s with
            sStore := ks.map some ++ s.sStore.drop (2 * s.nr.toNat + 2)
            lStore := List.replicate ((b + 3) / 4) 0 ++ s.lStore.drop ((b + 3) / 4)
            a := 0, b := 0, ctx := .keyed, res := .ok, busy := false })

/-- R153: the padded key. Word `j` is key bytes `4j` to `4j + 3`, the lowest-indexed in bits 7:0, absent bytes zero;
it loads exactly when every key byte holds a value. -/
def Obligations.PaddedKeyIsLittleEndian : Prop :=
  ∀ (m : Memory 8) (b : Nat),
    ((∃ l, loadPaddedKey m ((b + 3) / 4) b = some l) ↔ ∀ a, a < b → (Memory.read m a).isSome = true) ∧
    ∀ (l : List Word) (k : Nat → Nat),
      (∀ a, b ≤ a → k a = 0) → (∀ a v, a < b → Memory.read m a = some v → k a = v.toNat) →
      loadPaddedKey m ((b + 3) / 4) b = some l →
      l.length = (b + 3) / 4 ∧
      ∀ j, j < (b + 3) / 4 →
        l[j]? = some (BitVec.ofNat 32
          (k (4 * j) + k (4 * j + 1) * 2 ^ 8 + k (4 * j + 2) * 2 ^ 16 + k (4 * j + 3) * 2 ^ 24))

/-- R154: the seeds, by their recurrence and in closed form. -/
def Obligations.SeedsClosedForm : Prop :=
  ∀ t : Nat,
    (seedKeys t).length = t ∧
    (0 < t → (seedKeys t)[0]? = some 0xB7E15163#32) ∧
    (∀ i x, (seedKeys t)[i]? = some x → i + 1 < t → (seedKeys t)[i + 1]? = some (x + 0x9E3779B9#32)) ∧
    (∀ i, i < t → (seedKeys t)[i]? = some (0xB7E15163#32 + BitVec.ofNat 32 i * 0x9E3779B9#32))

/-- R156: mixing step `i`, spelled out. -/
def Obligations.MixingStep : Prop :=
  ∀ (t c i : Nat) (m : Mixing) (x y : Word), m.s[i % t]? = some x → m.l[i % c]? = some y →
    let a1 := (x + m.a + m.b).rotateLeft 3
    let rot := (a1 + m.b).toNat % 32
    let b1 := (y + a1 + m.b).rotateLeft rot
    mixStep t c i m = { s := m.s.set (i % t) a1, l := m.l.set (i % c) b1, a := a1, b := b1 }

/-- 42_key_schedule.md (rule R155): the pass runs steps `0 .. 3 * max(T, c) - 1` in that order from the seeds, the
padded key and zero accumulators, and no step forms an index outside `S` or `L`. -/
def Obligations.MixingPassInOrder : Prop :=
  ∀ (t c : Nat) (l : List Word),
    mixedKey t c l =
      (List.range (3 * max t c)).foldl (fun m i => mixStep t c i m) { s := seedKeys t, l := l, a := 0, b := 0 } ∧
    (0 < t → 0 < c → l.length = c → ∀ n i,
      i % t < (mixSteps t c n { s := seedKeys t, l := l, a := 0, b := 0 }).s.length ∧
      i % c < (mixSteps t c n { s := seedKeys t, l := l, a := 0, b := 0 }).l.length)

/-- R158: the schedule after `KEY b` is a function of `NR`, `b` and KEYMEM bytes `0 .. b - 1` alone. -/
def Obligations.ScheduleDependsOnRoundsAndKeyOnly : Prop :=
  ∀ (b : Nat) (s s' : State), s.ctx ≠ .empty → s'.ctx ≠ .empty → 1 ≤ b →
    b ≤ s.params.keyMaxBytes → b ≤ s'.params.keyMaxBytes → s.nr = s'.nr →
    (∀ a, a < b → (Memory.read s.keymem a).isSome = true ∧ Memory.read s.keymem a = Memory.read s'.keymem a) →
    ∃ t t' ks, exec (.key b) s = .next t ∧ exec (.key b) s' = .next t' ∧
      t.roundKeys = some ks ∧ t'.roundKeys = some ks ∧ ks.length = 2 * s.nr.toNat + 2

/-- R159: what KEY leaves alone; bytes at and above `b` do not influence `S`, and zero bytes added within the last word
do not change it. -/
def Obligations.KeyIgnoresTrailingBytes : Prop :=
  (∀ (b : Nat) (s t : State), exec (.key b) s = .next t →
    t.keymem = s.keymem ∧ t.buf = s.buf ∧ t.nr = s.nr) ∧
  (∀ (b a : Nat) (v : Byte) (s t t' : State), b ≤ a → exec (.key b) s = .next t →
    exec (.key b) { s with keymem := Memory.write s.keymem a v } = .next t' → t'.sStore = t.sStore) ∧
  (∀ (b b' : Nat) (s t t' : State), 1 ≤ b → b ≤ b' → (b + 3) / 4 = (b' + 3) / 4 →
    (∀ a, b ≤ a → a < b' → Memory.read s.keymem a = some 0) →
    exec (.key b) s = .next t → t.res = .ok → exec (.key b') s = .next t' → t'.res = .ok →
    t'.sStore = t.sStore)

/-- R66, R67: a command that passes its checks and would read a cell nothing has written is refused, and reset leaves
every cell so. -/
def Obligations.UnwrittenCellsAreRefused : Prop :=
  (∀ (b a : Nat) (s : State), s.ctx ≠ .empty → b ≤ s.params.keyMaxBytes → a < b →
    Memory.read s.keymem a = none → exec (.key b) s = .refused .unwrittenKeyByte) ∧
  (∀ (n j : Nat) (s : State) (ks : List Word) (i : Instr), i = .enc n ∨ i = .dec n → s.ctx = .keyed →
    s.roundKeys = some ks → s.bbase.toNat + n ≤ s.params.bufBlocks →
    2 * s.bbase.toNat ≤ j → j < 2 * (s.bbase.toNat + n) → Memory.read s.buf j = none →
    exec i s = .refused .unwrittenBufWord) ∧
  (∀ a, Memory.read State.reset.keymem a = none) ∧ (∀ j, Memory.read State.reset.buf j = none)

/-! ## ENC and DEC -/

/-- R171: ENC, whole: its word, its three faults, the transformed words, and all it leaves alone. -/
def Obligations.EncTransformsItsBlocks : Prop :=
  ∀ (n : Nat) (s : State),
    (n ≤ 65535 → (encode (.enc n)).toNat = 0x30000000 + n) ∧
    (s.ctx = .empty → exec (.enc n) s = .next { s with res := .eState, fault := true, busy := false }) ∧
    (s.ctx = .alloc → exec (.enc n) s = .next { s with res := .eNokey, fault := true, busy := false }) ∧
    (s.ctx = .keyed → s.params.bufBlocks < s.bbase.toNat + n →
      exec (.enc n) s = .next { s with res := .eBounds, fault := true, busy := false }) ∧
    (∀ ks, s.ctx = .keyed → s.roundKeys = some ks → s.bbase.toNat + n ≤ s.params.bufBlocks →
      (∀ j, 2 * s.bbase.toNat ≤ j → j < 2 * (s.bbase.toNat + n) → (Memory.read s.buf j).isSome = true) →
      ∃ m, exec (.enc n) s = .next { s with buf := m, d0 := 0, d1 := 0, res := .ok, busy := false } ∧
        (∀ h x0 x1, h < n → Memory.read s.buf (2 * (s.bbase.toNat + h)) = some x0 →
          Memory.read s.buf (2 * (s.bbase.toNat + h) + 1) = some x1 →
          Memory.read m (2 * (s.bbase.toNat + h)) = some (encBlock ks s.nr.toNat { d0 := x0, d1 := x1 }).d0 ∧
          Memory.read m (2 * (s.bbase.toNat + h) + 1) = some (encBlock ks s.nr.toNat { d0 := x0, d1 := x1 }).d1) ∧
        (∀ j, j < 2 * s.bbase.toNat ∨ 2 * (s.bbase.toNat + n) ≤ j → Memory.read m j = Memory.read s.buf j))

/-- R181: DEC, whole: its word, its three faults, the transformed words, and all it leaves alone. -/
def Obligations.DecTransformsItsBlocks : Prop :=
  ∀ (n : Nat) (s : State),
    (n ≤ 65535 → (encode (.dec n)).toNat = 0x40000000 + n) ∧
    (s.ctx = .empty → exec (.dec n) s = .next { s with res := .eState, fault := true, busy := false }) ∧
    (s.ctx = .alloc → exec (.dec n) s = .next { s with res := .eNokey, fault := true, busy := false }) ∧
    (s.ctx = .keyed → s.params.bufBlocks < s.bbase.toNat + n →
      exec (.dec n) s = .next { s with res := .eBounds, fault := true, busy := false }) ∧
    (∀ ks, s.ctx = .keyed → s.roundKeys = some ks → s.bbase.toNat + n ≤ s.params.bufBlocks →
      (∀ j, 2 * s.bbase.toNat ≤ j → j < 2 * (s.bbase.toNat + n) → (Memory.read s.buf j).isSome = true) →
      ∃ m, exec (.dec n) s = .next { s with buf := m, d0 := 0, d1 := 0, res := .ok, busy := false } ∧
        (∀ h x0 x1, h < n → Memory.read s.buf (2 * (s.bbase.toNat + h)) = some x0 →
          Memory.read s.buf (2 * (s.bbase.toNat + h) + 1) = some x1 →
          Memory.read m (2 * (s.bbase.toNat + h)) = some (decBlock ks s.nr.toNat { d0 := x0, d1 := x1 }).d0 ∧
          Memory.read m (2 * (s.bbase.toNat + h) + 1) = some (decBlock ks s.nr.toNat { d0 := x0, d1 := x1 }).d1) ∧
        (∀ j, j < 2 * s.bbase.toNat ∨ 2 * (s.bbase.toNat + n) ≤ j → Memory.read m j = Memory.read s.buf j))

/-- R172: `EncBlock`: pre-whitening, then round `k` for `k` from 1 on, each in the rule's one-line form. -/
def Obligations.EncBlockRounds : Prop :=
  ∀ (ks : List Word) (x : Block),
    (∀ k0 k1, ks[0]? = some k0 → ks[1]? = some k1 → encBlock ks 0 x = { d0 := x.d0 + k0, d1 := x.d1 + k1 }) ∧
    (∀ k lo hi, ks[2 * (k + 1)]? = some lo → ks[2 * (k + 1) + 1]? = some hi →
      let y := encBlock ks k x
      let d0 := (y.d0 ^^^ y.d1).rotateLeft (y.d1.toNat % 32) + lo
      let d1 := (y.d1 ^^^ d0).rotateLeft (d0.toNat % 32) + hi
      encBlock ks (k + 1) x = { d0 := d0, d1 := d1 })

/-- R182: `DecBlock`: round `k` from the last down to 1 is undone in the rule's one-line form, then the pre-whitening
keys are subtracted. -/
def Obligations.DecBlockRounds : Prop :=
  ∀ (ks : List Word) (x : Block),
    (∀ k0 k1, ks[0]? = some k0 → ks[1]? = some k1 → decBlock ks 0 x = { d0 := x.d0 - k0, d1 := x.d1 - k1 }) ∧
    (∀ k lo hi, ks[2 * (k + 1)]? = some lo → ks[2 * (k + 1) + 1]? = some hi →
      let d1 := (x.d1 - hi).rotateRight (x.d0.toNat % 32) ^^^ x.d0
      let d0 := (x.d0 - lo).rotateRight (d1.toNat % 32) ^^^ d1
      decBlock ks (k + 1) x = decBlock ks k { d0 := d0, d1 := d1 })

/-- R174, R185: with no rounds ENC adds the two pre-whitening words to each block and DEC subtracts them. -/
def Obligations.ZeroRoundsOnlyWhiten : Prop :=
  ∀ (n h : Nat) (s : State) (k0 k1 x0 x1 : Word), s.ctx = .keyed → s.nr = 0 → s.roundKeys = some [k0, k1] →
    s.bbase.toNat + n ≤ s.params.bufBlocks →
    (∀ j, 2 * s.bbase.toNat ≤ j → j < 2 * (s.bbase.toNat + n) → (Memory.read s.buf j).isSome = true) →
    h < n → Memory.read s.buf (2 * (s.bbase.toNat + h)) = some x0 →
    Memory.read s.buf (2 * (s.bbase.toNat + h) + 1) = some x1 →
    (∃ t, exec (.enc n) s = .next t ∧ Memory.read t.buf (2 * (s.bbase.toNat + h)) = some (x0 + k0) ∧
      Memory.read t.buf (2 * (s.bbase.toNat + h) + 1) = some (x1 + k1)) ∧
    (∃ t, exec (.dec n) s = .next t ∧ Memory.read t.buf (2 * (s.bbase.toNat + h)) = some (x0 - k0) ∧
      Memory.read t.buf (2 * (s.bbase.toNat + h) + 1) = some (x1 - k1))

/-- 44_decrypt.md (rule R184): `DecBlock` and `EncBlock` are inverse to each other for every round count and every
array of round keys, and `DecBlock` is the only function that undoes `EncBlock`. -/
def Obligations.BlockRoundTrip : Prop :=
  ∀ (ks : List Word) (rounds : Nat),
    (∀ x, decBlock ks rounds (encBlock ks rounds x) = x) ∧
    (∀ x, encBlock ks rounds (decBlock ks rounds x) = x) ∧
    (∀ f : Block → Block, (∀ x, f (encBlock ks rounds x) = x) → f = decBlock ks rounds)

/-- 44_decrypt.md (rule R184), at the command level: in a keyed context, ENC then DEC of the same blocks, and DEC then
ENC, complete and leave BUF as it was. -/
def Obligations.BufferRoundTrip : Prop :=
  ∀ (n : Nat) (s : State) (ks : List Word), s.ctx = .keyed → s.roundKeys = some ks →
    s.bbase.toNat + n ≤ s.params.bufBlocks → Memory.wf s.buf →
    (∀ j, 2 * s.bbase.toNat ≤ j → j < 2 * (s.bbase.toNat + n) → (Memory.read s.buf j).isSome = true) →
    (∃ t u, exec (.enc n) s = .next t ∧ exec (.dec n) t = .next u ∧ u.buf = s.buf) ∧
    (∃ t u, exec (.dec n) s = .next t ∧ exec (.enc n) t = .next u ∧ u.buf = s.buf)

/-- R175: ENC of no blocks completes and touches no word of BUF, unless `BBASE` lies beyond the buffer. The clause for
DEC is 44_decrypt.md's "as for ENC" (rule R186). -/
def Obligations.ZeroBlocksChangeNoWord : Prop :=
  ∀ (s : State) (i : Instr), i = .enc 0 ∨ i = .dec 0 → s.ctx = .keyed →
    (∀ ks, s.roundKeys = some ks → s.bbase.toNat ≤ s.params.bufBlocks →
      exec i s = .next { s with d0 := 0, d1 := 0, res := .ok, busy := false }) ∧
    (s.params.bufBlocks < s.bbase.toNat →
      exec i s = .next { s with res := .eBounds, fault := true, busy := false })

/-- 43_encrypt.md (rule R176) and 44_decrypt.md (rule R186): a run of `m + n` blocks leaves BUF as a run of the first
`m` and a run of the other `n`, started at their base, do. -/
def Obligations.BlocksAreIndependent : Prop :=
  ∀ (op : Nat → Instr) (m n : Nat) (s t : State), op = Instr.enc ∨ op = Instr.dec →
    exec (op (m + n)) s = .next t → t.res = .ok → s.bbase.toNat + m < 65536 →
    ∃ u v, exec (op m) s = .next u ∧ u.res = .ok ∧
      exec (op n) { u with bbase := BitVec.ofNat 16 (s.bbase.toNat + m) } = .next v ∧ v.res = .ok ∧ v.buf = t.buf

/-! ## Isolation and the invariant -/

/-- 10_state.md section 5 (rule R37): two states that differ only in `S`, `L`, `A`, `B`, `D0`, `D1` give the host the
same answers under every move that is not a command, and no such move but reset writes those or `NR`. -/
def Obligations.HostCannotReadKeyMaterial : Prop :=
  ∀ (s s' t : State) (m : HostMove) (rest : List HostMove), s.pending = m :: rest →
    (∀ w, m ≠ .writeReg .cmd w) → s.hideSecrets = s'.hideSecrets → step s = .next t →
    (∃ t', step s' = .next t' ∧ t.hideSecrets = t'.hideSecrets) ∧
    (m ≠ .reset → t.sStore = s.sStore ∧ t.lStore = s.lStore ∧ t.a = s.a ∧ t.b = s.b ∧ t.d0 = s.d0 ∧ t.d1 = s.d1 ∧
      t.nr = s.nr)

/-- The state after reset meets the invariant (10_state.md sections 6 and 7). -/
def Obligations.ResetMeetsTheInvariant : Prop :=
  State.reset.Inv

/-- 10_state.md section 6 (rule R39), with the store sizes and the scrub of rule R25 and the canonical form of the
memories: every step from a state that meets the invariant gives one that does. -/
def Obligations.StepKeepsTheInvariant : Prop :=
  ∀ s t : State, s.Inv → step s = .next t → t.Inv

/-- 10_state.md (rules R23, R39) and 60_exceptions.md section 3 (rules R203 to R207): under the invariant a keyed context
has all its `T` round keys, so no command meets a round key without a value; and when every cell of both memories holds a
value, every command answers a next state, and completes there (`RES = OK`) exactly if its checks pass. -/
def Obligations.InvariantGivesEveryRoundKey : Prop :=
  ∀ s : State, s.Inv →
    (s.ctx = .keyed → ∃ ks, s.roundKeys = some ks ∧ ks.length = 2 * s.nr.toNat + 2) ∧
    (∀ i, exec i s ≠ .refused .undefinedRoundKey) ∧
    ((∀ a, a < s.params.keyMaxBytes → (Memory.read s.keymem a).isSome = true) →
      (∀ j, j < 2 * s.params.bufBlocks → (Memory.read s.buf j).isSome = true) →
      ∀ i : Instr, ∃ t, exec i s = .next t ∧
        (t.res = .ok ↔
          match i with
          | .init r => s.ctx = .empty ∧ r ≤ s.params.roundsMax
          | .key b => s.ctx ≠ .empty ∧ 1 ≤ b ∧ b ≤ s.params.keyMaxBytes
          | .enc n => s.ctx = .keyed ∧ s.bbase.toNat + n ≤ s.params.bufBlocks
          | .dec n => s.ctx = .keyed ∧ s.bbase.toNat + n ≤ s.params.bufBlocks
          | .destroy => s.ctx ≠ .empty))

/-! ## The datapath -/

/-- R121, R122, R123: the adder, the subtractor and the XOR mixer. -/
def Obligations.AddSubXorWords : Prop :=
  ∀ x y z : Word,
    (add32 x y).toNat = (x.toNat + y.toNat) % 2 ^ 32 ∧
    add32 x y = add32 y x ∧ add32 (add32 x y) z = add32 x (add32 y z) ∧
    (sub32 x y).toNat = (x.toNat + (2 ^ 32 - y.toNat)) % 2 ^ 32 ∧
    (add32 z y = x ↔ z = sub32 x y) ∧
    sub32 x y = add32 x (add32 (xor32 y 0xFFFFFFFF#32) 1#32) ∧
    (∀ i, i < 32 → (xor32 x y).getLsbD i = (x.getLsbD i ^^ y.getLsbD i))

/-- R125, R126: the rotators, bit by bit and as arithmetic. -/
def Obligations.RotatorBits : Prop :=
  ∀ (x : Word) (n : Nat), n ≤ 31 →
    (∀ i, i < 32 → (rotl32 x n).getLsbD ((i + n) % 32) = x.getLsbD i) ∧
    (∀ i, i < 32 → (rotr32 x n).getLsbD i = x.getLsbD ((i + n) % 32)) ∧
    (1 ≤ n → (rotl32 x n).toNat = x.toNat * 2 ^ n % 2 ^ 32 + x.toNat / 2 ^ (32 - n)) ∧
    (1 ≤ n → (rotr32 x n).toNat = x.toNat / 2 ^ n + x.toNat % 2 ^ n * 2 ^ (32 - n)) ∧
    rotl32 x 0 = x ∧ rotr32 x 0 = x ∧ rotr32 x n = rotl32 x ((32 - n) % 32)

/-- R124, R128: the amount is the word modulo 32, and the amount of a sum is the sum of the amounts modulo 32, however
the sum is reduced first. -/
def Obligations.RotationAmounts : Prop :=
  ∀ x y : Word,
    amt5 x = x.toNat % 32 ∧
    amt5 (add32 x y) = (x.toNat + y.toNat) % 32 ∧
    amt5 (add32 x y) = (amt5 x + amt5 y) % 32

/-- R129: the inverse pairs. -/
def Obligations.DatapathInversePairs : Prop :=
  ∀ (x y : Word) (n : Nat), n ≤ 31 →
    sub32 (add32 x y) y = x ∧ add32 (sub32 x y) y = x ∧ rotr32 (rotl32 x n) n = x ∧ rotl32 (rotr32 x n) n = x ∧
    xor32 (xor32 x y) y = x
end

