-- ==== Sys2Proof/Laws/State.lean ====
section
/-! SUPPORT. One lemma per field of State and named update of it, each true by definition, so that no proof unfolds a
record update. -/

namespace Sys2Proof.Machine

/-! ### raiseFault -/

@[simp] theorem raiseFault_params (code : Result) (s : State) : (raiseFault code s).params = s.params := rfl
@[simp] theorem raiseFault_ctx (code : Result) (s : State) : (raiseFault code s).ctx = s.ctx := rfl
@[simp] theorem raiseFault_nr (code : Result) (s : State) : (raiseFault code s).nr = s.nr := rfl
@[simp] theorem raiseFault_sStore (code : Result) (s : State) : (raiseFault code s).sStore = s.sStore := rfl
@[simp] theorem raiseFault_lStore (code : Result) (s : State) : (raiseFault code s).lStore = s.lStore := rfl
@[simp] theorem raiseFault_a (code : Result) (s : State) : (raiseFault code s).a = s.a := rfl
@[simp] theorem raiseFault_b (code : Result) (s : State) : (raiseFault code s).b = s.b := rfl
@[simp] theorem raiseFault_d0 (code : Result) (s : State) : (raiseFault code s).d0 = s.d0 := rfl
@[simp] theorem raiseFault_d1 (code : Result) (s : State) : (raiseFault code s).d1 = s.d1 := rfl
@[simp] theorem raiseFault_bbase (code : Result) (s : State) : (raiseFault code s).bbase = s.bbase := rfl
@[simp] theorem raiseFault_res (code : Result) (s : State) : (raiseFault code s).res = code := rfl
@[simp] theorem raiseFault_fault (code : Result) (s : State) : (raiseFault code s).fault = true := rfl
@[simp] theorem raiseFault_ovr (code : Result) (s : State) : (raiseFault code s).ovr = s.ovr := rfl
@[simp] theorem raiseFault_busy (code : Result) (s : State) : (raiseFault code s).busy = false := rfl
@[simp] theorem raiseFault_keymem (code : Result) (s : State) : (raiseFault code s).keymem = s.keymem := rfl
@[simp] theorem raiseFault_buf (code : Result) (s : State) : (raiseFault code s).buf = s.buf := rfl
@[simp] theorem raiseFault_pending (code : Result) (s : State) : (raiseFault code s).pending = s.pending := rfl
@[simp] theorem raiseFault_listing (code : Result) (s : State) : (raiseFault code s).listing = s.listing := rfl
@[simp] theorem raiseFault_t (code : Result) (s : State) : (raiseFault code s).t = s.t := rfl
@[simp] theorem raiseFault_base (code : Result) (s : State) : (raiseFault code s).base = s.base := rfl

/-! ### complete -/

@[simp] theorem complete_params (s : State) : (complete s).params = s.params := rfl
@[simp] theorem complete_ctx (s : State) : (complete s).ctx = s.ctx := rfl
@[simp] theorem complete_nr (s : State) : (complete s).nr = s.nr := rfl
@[simp] theorem complete_sStore (s : State) : (complete s).sStore = s.sStore := rfl
@[simp] theorem complete_lStore (s : State) : (complete s).lStore = s.lStore := rfl
@[simp] theorem complete_a (s : State) : (complete s).a = s.a := rfl
@[simp] theorem complete_b (s : State) : (complete s).b = s.b := rfl
@[simp] theorem complete_d0 (s : State) : (complete s).d0 = s.d0 := rfl
@[simp] theorem complete_d1 (s : State) : (complete s).d1 = s.d1 := rfl
@[simp] theorem complete_bbase (s : State) : (complete s).bbase = s.bbase := rfl
@[simp] theorem complete_res (s : State) : (complete s).res = .ok := rfl
@[simp] theorem complete_fault (s : State) : (complete s).fault = s.fault := rfl
@[simp] theorem complete_ovr (s : State) : (complete s).ovr = s.ovr := rfl
@[simp] theorem complete_busy (s : State) : (complete s).busy = false := rfl
@[simp] theorem complete_keymem (s : State) : (complete s).keymem = s.keymem := rfl
@[simp] theorem complete_buf (s : State) : (complete s).buf = s.buf := rfl
@[simp] theorem complete_pending (s : State) : (complete s).pending = s.pending := rfl
@[simp] theorem complete_listing (s : State) : (complete s).listing = s.listing := rfl
@[simp] theorem complete_t (s : State) : (complete s).t = s.t := rfl
@[simp] theorem complete_base (s : State) : (complete s).base = s.base := rfl

/-! ### claimContext -/

@[simp] theorem claimContext_params (r : Nat) (s : State) : (claimContext r s).params = s.params := rfl
@[simp] theorem claimContext_ctx (r : Nat) (s : State) : (claimContext r s).ctx = .alloc := rfl
@[simp] theorem claimContext_nr (r : Nat) (s : State) : (claimContext r s).nr = BitVec.ofNat 8 r := rfl
@[simp] theorem claimContext_sStore (r : Nat) (s : State) : (claimContext r s).sStore = undefineKeys (keyCount r) s.sStore := rfl
@[simp] theorem claimContext_lStore (r : Nat) (s : State) : (claimContext r s).lStore = s.lStore := rfl
@[simp] theorem claimContext_a (r : Nat) (s : State) : (claimContext r s).a = s.a := rfl
@[simp] theorem claimContext_b (r : Nat) (s : State) : (claimContext r s).b = s.b := rfl
@[simp] theorem claimContext_d0 (r : Nat) (s : State) : (claimContext r s).d0 = s.d0 := rfl
@[simp] theorem claimContext_d1 (r : Nat) (s : State) : (claimContext r s).d1 = s.d1 := rfl
@[simp] theorem claimContext_bbase (r : Nat) (s : State) : (claimContext r s).bbase = s.bbase := rfl
@[simp] theorem claimContext_res (r : Nat) (s : State) : (claimContext r s).res = s.res := rfl
@[simp] theorem claimContext_fault (r : Nat) (s : State) : (claimContext r s).fault = s.fault := rfl
@[simp] theorem claimContext_ovr (r : Nat) (s : State) : (claimContext r s).ovr = s.ovr := rfl
@[simp] theorem claimContext_busy (r : Nat) (s : State) : (claimContext r s).busy = s.busy := rfl
@[simp] theorem claimContext_keymem (r : Nat) (s : State) : (claimContext r s).keymem = s.keymem := rfl
@[simp] theorem claimContext_buf (r : Nat) (s : State) : (claimContext r s).buf = s.buf := rfl
@[simp] theorem claimContext_pending (r : Nat) (s : State) : (claimContext r s).pending = s.pending := rfl
@[simp] theorem claimContext_listing (r : Nat) (s : State) : (claimContext r s).listing = s.listing := rfl
@[simp] theorem claimContext_base (r : Nat) (s : State) : (claimContext r s).base = s.base := rfl

/-! ### scrubKeys -/

@[simp] theorem scrubKeys_params (s : State) : (scrubKeys s).params = s.params := rfl
@[simp] theorem scrubKeys_ctx (s : State) : (scrubKeys s).ctx = s.ctx := rfl
@[simp] theorem scrubKeys_nr (s : State) : (scrubKeys s).nr = s.nr := rfl
@[simp] theorem scrubKeys_sStore (s : State) : (scrubKeys s).sStore = overwrite (List.replicate s.t (some 0)) s.sStore := rfl
@[simp] theorem scrubKeys_lStore (s : State) : (scrubKeys s).lStore = s.lStore := rfl
@[simp] theorem scrubKeys_a (s : State) : (scrubKeys s).a = s.a := rfl
@[simp] theorem scrubKeys_b (s : State) : (scrubKeys s).b = s.b := rfl
@[simp] theorem scrubKeys_d0 (s : State) : (scrubKeys s).d0 = s.d0 := rfl
@[simp] theorem scrubKeys_d1 (s : State) : (scrubKeys s).d1 = s.d1 := rfl
@[simp] theorem scrubKeys_bbase (s : State) : (scrubKeys s).bbase = s.bbase := rfl
@[simp] theorem scrubKeys_res (s : State) : (scrubKeys s).res = s.res := rfl
@[simp] theorem scrubKeys_fault (s : State) : (scrubKeys s).fault = s.fault := rfl
@[simp] theorem scrubKeys_ovr (s : State) : (scrubKeys s).ovr = s.ovr := rfl
@[simp] theorem scrubKeys_busy (s : State) : (scrubKeys s).busy = s.busy := rfl
@[simp] theorem scrubKeys_keymem (s : State) : (scrubKeys s).keymem = s.keymem := rfl
@[simp] theorem scrubKeys_buf (s : State) : (scrubKeys s).buf = s.buf := rfl
@[simp] theorem scrubKeys_pending (s : State) : (scrubKeys s).pending = s.pending := rfl
@[simp] theorem scrubKeys_listing (s : State) : (scrubKeys s).listing = s.listing := rfl
@[simp] theorem scrubKeys_t (s : State) : (scrubKeys s).t = s.t := rfl
@[simp] theorem scrubKeys_base (s : State) : (scrubKeys s).base = s.base := rfl

/-! ### releaseContext -/

@[simp] theorem releaseContext_params (s : State) : (releaseContext s).params = s.params := rfl
@[simp] theorem releaseContext_ctx (s : State) : (releaseContext s).ctx = .empty := rfl
@[simp] theorem releaseContext_nr (s : State) : (releaseContext s).nr = 0 := rfl
@[simp] theorem releaseContext_sStore (s : State) : (releaseContext s).sStore = s.sStore := rfl
@[simp] theorem releaseContext_lStore (s : State) : (releaseContext s).lStore = s.lStore := rfl
@[simp] theorem releaseContext_a (s : State) : (releaseContext s).a = s.a := rfl
@[simp] theorem releaseContext_b (s : State) : (releaseContext s).b = s.b := rfl
@[simp] theorem releaseContext_d0 (s : State) : (releaseContext s).d0 = s.d0 := rfl
@[simp] theorem releaseContext_d1 (s : State) : (releaseContext s).d1 = s.d1 := rfl
@[simp] theorem releaseContext_bbase (s : State) : (releaseContext s).bbase = s.bbase := rfl
@[simp] theorem releaseContext_res (s : State) : (releaseContext s).res = s.res := rfl
@[simp] theorem releaseContext_fault (s : State) : (releaseContext s).fault = s.fault := rfl
@[simp] theorem releaseContext_ovr (s : State) : (releaseContext s).ovr = s.ovr := rfl
@[simp] theorem releaseContext_busy (s : State) : (releaseContext s).busy = s.busy := rfl
@[simp] theorem releaseContext_keymem (s : State) : (releaseContext s).keymem = s.keymem := rfl
@[simp] theorem releaseContext_buf (s : State) : (releaseContext s).buf = s.buf := rfl
@[simp] theorem releaseContext_pending (s : State) : (releaseContext s).pending = s.pending := rfl
@[simp] theorem releaseContext_listing (s : State) : (releaseContext s).listing = s.listing := rfl
@[simp] theorem releaseContext_base (s : State) : (releaseContext s).base = s.base := rfl

/-! ### installKeys -/

@[simp] theorem installKeys_params (c : Nat) (keys : List Word) (s : State) : (installKeys c keys s).params = s.params := rfl
@[simp] theorem installKeys_ctx (c : Nat) (keys : List Word) (s : State) : (installKeys c keys s).ctx = .keyed := rfl
@[simp] theorem installKeys_nr (c : Nat) (keys : List Word) (s : State) : (installKeys c keys s).nr = s.nr := rfl
@[simp] theorem installKeys_sStore (c : Nat) (keys : List Word) (s : State) : (installKeys c keys s).sStore = overwrite (keys.map some) s.sStore := rfl
@[simp] theorem installKeys_lStore (c : Nat) (keys : List Word) (s : State) : (installKeys c keys s).lStore = overwrite (List.replicate c 0) s.lStore := rfl
@[simp] theorem installKeys_a (c : Nat) (keys : List Word) (s : State) : (installKeys c keys s).a = 0 := rfl
@[simp] theorem installKeys_b (c : Nat) (keys : List Word) (s : State) : (installKeys c keys s).b = 0 := rfl
@[simp] theorem installKeys_d0 (c : Nat) (keys : List Word) (s : State) : (installKeys c keys s).d0 = s.d0 := rfl
@[simp] theorem installKeys_d1 (c : Nat) (keys : List Word) (s : State) : (installKeys c keys s).d1 = s.d1 := rfl
@[simp] theorem installKeys_bbase (c : Nat) (keys : List Word) (s : State) : (installKeys c keys s).bbase = s.bbase := rfl
@[simp] theorem installKeys_res (c : Nat) (keys : List Word) (s : State) : (installKeys c keys s).res = s.res := rfl
@[simp] theorem installKeys_fault (c : Nat) (keys : List Word) (s : State) : (installKeys c keys s).fault = s.fault := rfl
@[simp] theorem installKeys_ovr (c : Nat) (keys : List Word) (s : State) : (installKeys c keys s).ovr = s.ovr := rfl
@[simp] theorem installKeys_busy (c : Nat) (keys : List Word) (s : State) : (installKeys c keys s).busy = s.busy := rfl
@[simp] theorem installKeys_keymem (c : Nat) (keys : List Word) (s : State) : (installKeys c keys s).keymem = s.keymem := rfl
@[simp] theorem installKeys_buf (c : Nat) (keys : List Word) (s : State) : (installKeys c keys s).buf = s.buf := rfl
@[simp] theorem installKeys_pending (c : Nat) (keys : List Word) (s : State) : (installKeys c keys s).pending = s.pending := rfl
@[simp] theorem installKeys_listing (c : Nat) (keys : List Word) (s : State) : (installKeys c keys s).listing = s.listing := rfl
@[simp] theorem installKeys_t (c : Nat) (keys : List Word) (s : State) : (installKeys c keys s).t = s.t := rfl
@[simp] theorem installKeys_base (c : Nat) (keys : List Word) (s : State) : (installKeys c keys s).base = s.base := rfl

/-! ### storeBlocks -/

@[simp] theorem storeBlocks_params (m : Memory 32) (s : State) : (storeBlocks m s).params = s.params := rfl
@[simp] theorem storeBlocks_ctx (m : Memory 32) (s : State) : (storeBlocks m s).ctx = s.ctx := rfl
@[simp] theorem storeBlocks_nr (m : Memory 32) (s : State) : (storeBlocks m s).nr = s.nr := rfl
@[simp] theorem storeBlocks_sStore (m : Memory 32) (s : State) : (storeBlocks m s).sStore = s.sStore := rfl
@[simp] theorem storeBlocks_lStore (m : Memory 32) (s : State) : (storeBlocks m s).lStore = s.lStore := rfl
@[simp] theorem storeBlocks_a (m : Memory 32) (s : State) : (storeBlocks m s).a = s.a := rfl
@[simp] theorem storeBlocks_b (m : Memory 32) (s : State) : (storeBlocks m s).b = s.b := rfl
@[simp] theorem storeBlocks_d0 (m : Memory 32) (s : State) : (storeBlocks m s).d0 = 0 := rfl
@[simp] theorem storeBlocks_d1 (m : Memory 32) (s : State) : (storeBlocks m s).d1 = 0 := rfl
@[simp] theorem storeBlocks_bbase (m : Memory 32) (s : State) : (storeBlocks m s).bbase = s.bbase := rfl
@[simp] theorem storeBlocks_res (m : Memory 32) (s : State) : (storeBlocks m s).res = s.res := rfl
@[simp] theorem storeBlocks_fault (m : Memory 32) (s : State) : (storeBlocks m s).fault = s.fault := rfl
@[simp] theorem storeBlocks_ovr (m : Memory 32) (s : State) : (storeBlocks m s).ovr = s.ovr := rfl
@[simp] theorem storeBlocks_busy (m : Memory 32) (s : State) : (storeBlocks m s).busy = s.busy := rfl
@[simp] theorem storeBlocks_keymem (m : Memory 32) (s : State) : (storeBlocks m s).keymem = s.keymem := rfl
@[simp] theorem storeBlocks_buf (m : Memory 32) (s : State) : (storeBlocks m s).buf = m := rfl
@[simp] theorem storeBlocks_pending (m : Memory 32) (s : State) : (storeBlocks m s).pending = s.pending := rfl
@[simp] theorem storeBlocks_listing (m : Memory 32) (s : State) : (storeBlocks m s).listing = s.listing := rfl
@[simp] theorem storeBlocks_t (m : Memory 32) (s : State) : (storeBlocks m s).t = s.t := rfl
@[simp] theorem storeBlocks_base (m : Memory 32) (s : State) : (storeBlocks m s).base = s.base := rfl

/-! ### dropWrite -/

@[simp] theorem dropWrite_params (s : State) : (dropWrite s).params = s.params := rfl
@[simp] theorem dropWrite_ctx (s : State) : (dropWrite s).ctx = s.ctx := rfl
@[simp] theorem dropWrite_nr (s : State) : (dropWrite s).nr = s.nr := rfl
@[simp] theorem dropWrite_sStore (s : State) : (dropWrite s).sStore = s.sStore := rfl
@[simp] theorem dropWrite_lStore (s : State) : (dropWrite s).lStore = s.lStore := rfl
@[simp] theorem dropWrite_a (s : State) : (dropWrite s).a = s.a := rfl
@[simp] theorem dropWrite_b (s : State) : (dropWrite s).b = s.b := rfl
@[simp] theorem dropWrite_d0 (s : State) : (dropWrite s).d0 = s.d0 := rfl
@[simp] theorem dropWrite_d1 (s : State) : (dropWrite s).d1 = s.d1 := rfl
@[simp] theorem dropWrite_bbase (s : State) : (dropWrite s).bbase = s.bbase := rfl
@[simp] theorem dropWrite_res (s : State) : (dropWrite s).res = s.res := rfl
@[simp] theorem dropWrite_fault (s : State) : (dropWrite s).fault = true := rfl
@[simp] theorem dropWrite_ovr (s : State) : (dropWrite s).ovr = true := rfl
@[simp] theorem dropWrite_busy (s : State) : (dropWrite s).busy = s.busy := rfl
@[simp] theorem dropWrite_keymem (s : State) : (dropWrite s).keymem = s.keymem := rfl
@[simp] theorem dropWrite_buf (s : State) : (dropWrite s).buf = s.buf := rfl
@[simp] theorem dropWrite_pending (s : State) : (dropWrite s).pending = s.pending := rfl
@[simp] theorem dropWrite_listing (s : State) : (dropWrite s).listing = s.listing := rfl
@[simp] theorem dropWrite_t (s : State) : (dropWrite s).t = s.t := rfl
@[simp] theorem dropWrite_base (s : State) : (dropWrite s).base = s.base := rfl

/-! ### answer -/

@[simp] theorem answer_params (x : HostAnswer) (s : State) : (answer x s).params = s.params := rfl
@[simp] theorem answer_ctx (x : HostAnswer) (s : State) : (answer x s).ctx = s.ctx := rfl
@[simp] theorem answer_nr (x : HostAnswer) (s : State) : (answer x s).nr = s.nr := rfl
@[simp] theorem answer_sStore (x : HostAnswer) (s : State) : (answer x s).sStore = s.sStore := rfl
@[simp] theorem answer_lStore (x : HostAnswer) (s : State) : (answer x s).lStore = s.lStore := rfl
@[simp] theorem answer_a (x : HostAnswer) (s : State) : (answer x s).a = s.a := rfl
@[simp] theorem answer_b (x : HostAnswer) (s : State) : (answer x s).b = s.b := rfl
@[simp] theorem answer_d0 (x : HostAnswer) (s : State) : (answer x s).d0 = s.d0 := rfl
@[simp] theorem answer_d1 (x : HostAnswer) (s : State) : (answer x s).d1 = s.d1 := rfl
@[simp] theorem answer_bbase (x : HostAnswer) (s : State) : (answer x s).bbase = s.bbase := rfl
@[simp] theorem answer_res (x : HostAnswer) (s : State) : (answer x s).res = s.res := rfl
@[simp] theorem answer_fault (x : HostAnswer) (s : State) : (answer x s).fault = s.fault := rfl
@[simp] theorem answer_ovr (x : HostAnswer) (s : State) : (answer x s).ovr = s.ovr := rfl
@[simp] theorem answer_busy (x : HostAnswer) (s : State) : (answer x s).busy = s.busy := rfl
@[simp] theorem answer_keymem (x : HostAnswer) (s : State) : (answer x s).keymem = s.keymem := rfl
@[simp] theorem answer_buf (x : HostAnswer) (s : State) : (answer x s).buf = s.buf := rfl
@[simp] theorem answer_pending (x : HostAnswer) (s : State) : (answer x s).pending = s.pending := rfl
@[simp] theorem answer_listing (x : HostAnswer) (s : State) : (answer x s).listing = s.listing ++ [x] := rfl
@[simp] theorem answer_t (x : HostAnswer) (s : State) : (answer x s).t = s.t := rfl
@[simp] theorem answer_base (x : HostAnswer) (s : State) : (answer x s).base = s.base := rfl

/-! ### hostReset -/

@[simp] theorem hostReset_params (s : State) : (hostReset s).params = s.params := rfl
@[simp] theorem hostReset_ctx (s : State) : (hostReset s).ctx = .empty := rfl
@[simp] theorem hostReset_nr (s : State) : (hostReset s).nr = 0 := rfl
@[simp] theorem hostReset_sStore (s : State) : (hostReset s).sStore = List.replicate s.params.sCap (some 0) := rfl
@[simp] theorem hostReset_lStore (s : State) : (hostReset s).lStore = List.replicate s.params.lCap 0 := rfl
@[simp] theorem hostReset_a (s : State) : (hostReset s).a = 0 := rfl
@[simp] theorem hostReset_b (s : State) : (hostReset s).b = 0 := rfl
@[simp] theorem hostReset_d0 (s : State) : (hostReset s).d0 = 0 := rfl
@[simp] theorem hostReset_d1 (s : State) : (hostReset s).d1 = 0 := rfl
@[simp] theorem hostReset_bbase (s : State) : (hostReset s).bbase = 0 := rfl
@[simp] theorem hostReset_res (s : State) : (hostReset s).res = .ok := rfl
@[simp] theorem hostReset_fault (s : State) : (hostReset s).fault = false := rfl
@[simp] theorem hostReset_ovr (s : State) : (hostReset s).ovr = false := rfl
@[simp] theorem hostReset_busy (s : State) : (hostReset s).busy = false := rfl
@[simp] theorem hostReset_keymem (s : State) : (hostReset s).keymem = [] := rfl
@[simp] theorem hostReset_buf (s : State) : (hostReset s).buf = [] := rfl
@[simp] theorem hostReset_pending (s : State) : (hostReset s).pending = s.pending := rfl
@[simp] theorem hostReset_listing (s : State) : (hostReset s).listing = s.listing := rfl

end Sys2Proof.Machine
end

