-- ==== Sys2Proof/Laws/Memory.lean ====
section
/-! SUPPORT. The laws of a memory: a cell reads what was last written to it, a write leaves every other cell alone,
every write keeps the canonical form, and canonical memories that read alike are equal (rules R69, R75, R76). -/

namespace Sys2Proof.Machine

namespace Memory

variable {w : Nat}

@[simp] theorem read_nil (a : Nat) : Memory.read ([] : Memory w) a = none := rfl

theorem read_cons (k : Nat) (x : BitVec w) (m : Memory w) (a : Nat) :
    Memory.read ((k, x) :: m) a = if k = a then some x else Memory.read m a := rfl

/-- A write sets the cell it names and no other; this is everything a later read can see of it. -/
theorem read_write (m : Memory w) (a j : Nat) (v : BitVec w) :
    Memory.read (Memory.write m a v) j = if a = j then some v else Memory.read m j := by
  induction m with
  | nil => rfl
  | cons c m ih =>
    obtain ⟨k, x⟩ := c
    simp only [Memory.write]
    split
    · simp [read_cons]
    · split
      · subst k; by_cases h : a = j <;> simp [read_cons, h]
      · simp only [read_cons, ih]
        split <;> split <;> simp_all

@[simp] theorem read_write_same (m : Memory w) (a : Nat) (v : BitVec w) :
    Memory.read (Memory.write m a v) a = some v := by simp [read_write]

theorem read_write_other (m : Memory w) {a j : Nat} (v : BitVec w) (h : a ≠ j) :
    Memory.read (Memory.write m a v) j = Memory.read m j := by simp [read_write, h]

/-- The cells a write can leave listed: the one it names, and those that were. -/
theorem mem_write {m : Memory w} {a : Nat} {v : BitVec w} {x : Nat × BitVec w} (h : x ∈ Memory.write m a v) :
    x = (a, v) ∨ x ∈ m := by
  induction m with
  | nil => simpa [Memory.write] using h
  | cons c m ih =>
    obtain ⟨k, y⟩ := c
    simp only [Memory.write] at h
    split at h
    · simpa using h
    · split at h
      · simp only [List.mem_cons] at h ⊢; tauto
      · simp only [List.mem_cons] at h ⊢; tauto

/-- A write keeps the canonical form. -/
theorem wf_write {m : Memory w} (h : Memory.wf m) (a : Nat) (v : BitVec w) : Memory.wf (Memory.write m a v) := by
  induction m with
  | nil => simp [Memory.write, Memory.wf]
  | cons c m ih =>
    obtain ⟨k, y⟩ := c
    rw [Memory.wf, List.pairwise_cons] at h
    simp only [Memory.write]
    split
    · rename_i hlt
      refine List.pairwise_cons.2 ⟨fun x hx => ?_, List.pairwise_cons.2 h⟩
      rcases List.mem_cons.1 hx with rfl | hx
      · exact hlt
      · exact lt_trans hlt (h.1 x hx)
    · split
      · subst k; exact List.pairwise_cons.2 h
      · refine List.pairwise_cons.2 ⟨fun x hx => ?_, ih h.2⟩
        rcases mem_write hx with rfl | hx
        · simp only; omega
        · exact h.1 x hx

/-- A write to a cell that exists keeps every listed cell among those that exist. -/
theorem within_write {m : Memory w} {size : Nat} (h : Memory.within m size) {a : Nat} (ha : a < size) (v : BitVec w) :
    Memory.within (Memory.write m a v) size := by
  intro x hx
  rcases mem_write hx with rfl | hx
  · exact ha
  · exact h x hx

/-- A cell that holds a value is listed. -/
theorem mem_of_read {m : Memory w} {a : Nat} {v : BitVec w} (h : Memory.read m a = some v) : (a, v) ∈ m := by
  induction m with
  | nil => simp at h
  | cons c m ih =>
    obtain ⟨k, y⟩ := c
    rw [read_cons] at h
    split at h
    · simp_all
    · exact List.mem_cons_of_mem _ (ih h)

theorem read_eq_none_of_lt {m : Memory w} {a : Nat} (h : ∀ x ∈ m, a < x.1) : Memory.read m a = none := by
  cases e : Memory.read m a with
  | none => rfl
  | some v => exact absurd (h _ (mem_of_read e)) (lt_irrefl a)

/-- Equal contents are equal data: canonical memories that read alike are the same list. -/
theorem ext_read {m n : Memory w} (hm : Memory.wf m) (hn : Memory.wf n)
    (h : ∀ a, Memory.read m a = Memory.read n a) : m = n := by
  induction m generalizing n with
  | nil =>
    cases n with
    | nil => rfl
    | cons d n => obtain ⟨l, y⟩ := d; have h1 := h l; simp [read_cons] at h1
  | cons c m ih =>
    cases n with
    | nil => obtain ⟨k, x⟩ := c; have h1 := h k; simp [read_cons] at h1
    | cons d n =>
      obtain ⟨k, x⟩ := c
      obtain ⟨l, y⟩ := d
      rw [Memory.wf, List.pairwise_cons] at hm hn
      have hkl : k = l := by
        by_contra hne
        rcases Nat.lt_or_gt_of_ne hne with hlt | hlt
        · have h1 := h k
          rw [read_cons, if_pos rfl, read_cons, if_neg (by omega),
            read_eq_none_of_lt (fun z hz => lt_trans hlt (hn.1 z hz))] at h1
          cases h1
        · have h1 := h l
          rw [read_cons, if_neg (by omega), read_cons, if_pos rfl,
            read_eq_none_of_lt (fun z hz => lt_trans hlt (hm.1 z hz))] at h1
          cases h1
      subst l
      have hxy : x = y := by have h1 := h k; simpa [read_cons] using h1
      subst y
      rw [ih hm.2 hn.2 (fun a => ?_)]
      by_cases hka : k = a
      · subst a
        rw [read_eq_none_of_lt hm.1, read_eq_none_of_lt hn.1]
      · have h1 := h a
        simpa [read_cons, hka] using h1

end Memory

end Sys2Proof.Machine
end

