-- ==== Sys2Proof/Laws/Cipher.lean ====
section
/-! SUPPORT. What reading, writing and transforming blocks of BUF do (rules R62, R69, R72, R176). -/

namespace Sys2Proof.Machine

theorem readBlock_eq_some {m : Memory 32} {k : Nat} {x : Block} :
    readBlock m k = some x ↔ Memory.read m (word0 k) = some x.d0 ∧ Memory.read m (word1 k) = some x.d1 := by
  obtain ⟨x0, x1⟩ := x
  rw [readBlock]
  cases Memory.read m (word0 k) <;> cases Memory.read m (word1 k) <;> simp

/-- A block can be read exactly when both its words hold a value. -/
theorem readBlock_isSome {m : Memory 32} {k : Nat} :
    (readBlock m k).isSome ↔ (Memory.read m (word0 k)).isSome ∧ (Memory.read m (word1 k)).isSome := by
  rw [readBlock]
  cases Memory.read m (word0 k) <;> cases Memory.read m (word1 k) <;> simp

/-- What a word of BUF reads as after a block is written. -/
theorem read_writeBlock (m : Memory 32) (k j : Nat) (x : Block) :
    Memory.read (writeBlock m k x) j =
      if word1 k = j then some x.d1 else if word0 k = j then some x.d0 else Memory.read m j := by
  simp only [writeBlock, Memory.read_write]

@[simp] theorem readBlock_writeBlock_same (m : Memory 32) (k : Nat) (x : Block) :
    readBlock (writeBlock m k x) k = some x := by
  rw [readBlock_eq_some, read_writeBlock, read_writeBlock]
  simp [word0, word1]

/-- Distinct blocks are distinct words (rule R72). -/
theorem readBlock_writeBlock_other (m : Memory 32) {k l : Nat} (x : Block) (h : k ≠ l) :
    readBlock (writeBlock m k x) l = readBlock m l := by
  have h0 : Memory.read (writeBlock m k x) (word0 l) = Memory.read m (word0 l) := by
    rw [read_writeBlock, if_neg (by simp only [word0, word1]; omega), if_neg (by simp only [word0]; omega)]
  have h1 : Memory.read (writeBlock m k x) (word1 l) = Memory.read m (word1 l) := by
    rw [read_writeBlock, if_neg (by simp only [word1]; omega), if_neg (by simp only [word0, word1]; omega)]
  rw [readBlock, readBlock, h0, h1]

theorem wf_writeBlock {m : Memory 32} (h : Memory.wf m) (k : Nat) (x : Block) : Memory.wf (writeBlock m k x) :=
  Memory.wf_write (Memory.wf_write h _ _) _ _

theorem within_writeBlock {m : Memory 32} {size k : Nat} (h : Memory.within m size) (hk : word1 k < size) (x : Block) :
    Memory.within (writeBlock m k x) size :=
  Memory.within_write (Memory.within_write h (by simp only [word0, word1] at *; omega) _) hk _

@[simp] theorem transformBlocks_zero (f : Block → Block) (q : Nat) (m : Memory 32) :
    transformBlocks f q 0 m = some m := rfl

/-- One more block: everything `transformBlocks` can answer for `n + 1` blocks. -/
theorem transformBlocks_succ {f : Block → Block} {q n : Nat} {m m' : Memory 32} :
    transformBlocks f q (n + 1) m = some m' ↔
      ∃ m1 x, transformBlocks f q n m = some m1 ∧ readBlock m1 (q + n) = some x ∧
        m' = writeBlock m1 (q + n) (f x) := by
  rw [transformBlocks]
  cases transformBlocks f q n m with
  | none => simp
  | some m1 => cases h : readBlock m1 (q + n) <;> simp [h, eq_comm]

/-- Words outside the block range read as before (rule R62). -/
theorem read_transformBlocks_outside {f : Block → Block} {q n : Nat} {m m' : Memory 32}
    (h : transformBlocks f q n m = some m') {j : Nat} (hj : j < word0 q ∨ word0 (q + n) ≤ j) :
    Memory.read m' j = Memory.read m j := by
  induction n generalizing m' with
  | zero => simp at h; rw [h]
  | succ n ih =>
    obtain ⟨m1, x, h1, -, rfl⟩ := transformBlocks_succ.1 h
    simp only [word0] at hj
    rw [read_writeBlock, if_neg (by simp only [word1]; omega), if_neg (by simp only [word0]; omega),
      ih h1 (by simp only [word0]; omega)]

/-- A block outside the range reads as before. -/
theorem readBlock_transformBlocks_outside {f : Block → Block} {q n : Nat} {m m' : Memory 32}
    (h : transformBlocks f q n m = some m') {k : Nat} (hk : k < q ∨ q + n ≤ k) :
    readBlock m' k = readBlock m k := by
  rw [readBlock, readBlock, read_transformBlocks_outside h (by simp only [word0]; omega),
    read_transformBlocks_outside h (by simp only [word0, word1]; omega)]

/-- Every block of the range held a value and is transformed, on its own (rule R176). -/
theorem readBlock_transformBlocks {f : Block → Block} {q n : Nat} {m m' : Memory 32}
    (h : transformBlocks f q n m = some m') {i : Nat} (hi : i < n) :
    ∃ x, readBlock m (q + i) = some x ∧ readBlock m' (q + i) = some (f x) := by
  induction n generalizing m' with
  | zero => omega
  | succ n ih =>
    obtain ⟨m1, x, h1, hx, rfl⟩ := transformBlocks_succ.1 h
    rcases Nat.lt_succ_iff_lt_or_eq.1 hi with hi | rfl
    · obtain ⟨y, hy, hy'⟩ := ih h1 hi
      exact ⟨y, hy, by rw [readBlock_writeBlock_other _ _ (by omega), hy']⟩
    · exact ⟨x, by rw [← hx, readBlock_transformBlocks_outside h1 (by omega)], by simp⟩

/-- The range is transformed exactly when every block of it holds a value (rule R67). -/
theorem transformBlocks_isSome_iff {f : Block → Block} {q n : Nat} {m : Memory 32} :
    (∃ m', transformBlocks f q n m = some m') ↔ ∀ i < n, (readBlock m (q + i)).isSome := by
  induction n with
  | zero => simp
  | succ n ih =>
    constructor
    · rintro ⟨m', h⟩ i hi
      obtain ⟨x, hx, -⟩ := readBlock_transformBlocks h hi
      simp [hx]
    · intro h
      obtain ⟨m1, h1⟩ := ih.2 fun i hi => h i (by omega)
      have hb := h n (by omega)
      rw [← readBlock_transformBlocks_outside h1 (Or.inr le_rfl)] at hb
      obtain ⟨x, hx⟩ := Option.isSome_iff_exists.1 hb
      exact ⟨_, transformBlocks_succ.2 ⟨m1, x, h1, hx, rfl⟩⟩

theorem wf_transformBlocks {f : Block → Block} {q n : Nat} {m m' : Memory 32} (hm : Memory.wf m)
    (h : transformBlocks f q n m = some m') : Memory.wf m' := by
  induction n generalizing m' with
  | zero => simp at h; exact h ▸ hm
  | succ n ih =>
    obtain ⟨m1, x, h1, -, rfl⟩ := transformBlocks_succ.1 h
    exact wf_writeBlock (ih h1) _ _

theorem within_transformBlocks {f : Block → Block} {q n size : Nat} {m m' : Memory 32} (hm : Memory.within m size)
    (hs : word0 (q + n) ≤ size) (h : transformBlocks f q n m = some m') : Memory.within m' size := by
  induction n generalizing m' with
  | zero => simp at h; exact h ▸ hm
  | succ n ih =>
    obtain ⟨m1, x, h1, -, rfl⟩ := transformBlocks_succ.1 h
    simp only [word0] at hs
    exact within_writeBlock (ih (by simp only [word0]; omega) h1) (by simp only [word1]; omega) _

end Sys2Proof.Machine
end

