-- ==== Sys2Proof/Laws/Encoding.lean ====
section
/-! SUPPORT. The three fields of a command word as arithmetic on its value, the value of an encoded command, and the
decoder's answers by field. -/

namespace Sys2Proof

/-- `OP` is the word divided by `2^28`. -/
theorem opField_toNat (w : Word) : (opField w).toNat = w.toNat / 2 ^ 28 := by
  simp only [opField, BitVec.extractLsb'_toNat, Nat.shiftRight_eq_div_pow]; omega

/-- `ZERO` is the word divided by `2^16`, modulo `2^12`. -/
theorem zeroField_toNat (w : Word) : (zeroField w).toNat = w.toNat / 2 ^ 16 % 2 ^ 12 := by
  simp only [zeroField, BitVec.extractLsb'_toNat, Nat.shiftRight_eq_div_pow]

/-- `N` is the word modulo `2^16`. -/
theorem nField_toNat (w : Word) : (nField w).toNat = w.toNat % 2 ^ 16 := by
  simp only [nField, BitVec.extractLsb'_toNat, Nat.shiftRight_eq_div_pow]; simp

/-- The reserved field is zero as a field exactly when it is zero as a number. -/
theorem zeroField_eq_zero_iff (w : Word) : zeroField w = 0#12 ↔ w.toNat / 2 ^ 16 % 2 ^ 12 = 0 := by
  rw [← zeroField_toNat, BitVec.toNat_eq]; rfl

/-- The operand is zero as a field exactly when it is zero as a number. -/
theorem nField_eq_zero_iff (w : Word) : nField w = 0#16 ↔ w.toNat % 2 ^ 16 = 0 := by
  rw [← nField_toNat, BitVec.toNat_eq]; rfl

/-- A non-zero reserved field rejects the word. -/
theorem decode_of_reserved {w : Word} (h : zeroField w ≠ 0#12) : decode w = .error .reservedNotZero :=
  if_pos h

/-- The value of an encoded command whose operand fits (rule R100). -/
theorem encode_toNat {i : Instr} (h : i.WellFormed) : (encode i).toNat = i.opcode * 2 ^ 28 + i.operand := by
  rw [encode, BitVec.toNat_ofNat]
  cases i <;> simp only [Instr.WellFormed] at h <;> simp only [Instr.opcode, Instr.operand] <;> omega

/-- `0x10000000 + r` (rule R141). -/
theorem encode_init_toNat {r : Nat} (h : r ≤ 65535) : (encode (.init r)).toNat = 0x10000000 + r := by
  simp only [encode, Instr.opcode, Instr.operand, BitVec.toNat_ofNat]; omega

/-- `0x20000000 + b` (rule R151). -/
theorem encode_key_toNat {b : Nat} (h : b ≤ 65535) : (encode (.key b)).toNat = 0x20000000 + b := by
  simp only [encode, Instr.opcode, Instr.operand, BitVec.toNat_ofNat]; omega

/-- `0x30000000 + n` (rule R171). -/
theorem encode_enc_toNat {n : Nat} (h : n ≤ 65535) : (encode (.enc n)).toNat = 0x30000000 + n := by
  simp only [encode, Instr.opcode, Instr.operand, BitVec.toNat_ofNat]; omega

/-- `0x40000000 + n` (rule R181). -/
theorem encode_dec_toNat {n : Nat} (h : n ≤ 65535) : (encode (.dec n)).toNat = 0x40000000 + n := by
  simp only [encode, Instr.opcode, Instr.operand, BitVec.toNat_ofNat]; omega

end Sys2Proof
end

