-- ==== Sys2Proof/Laws/Stores.lean ====
section
/-! SUPPORT. What `overwrite`, `definedWords` and the live round-key array say (rules R23 to R25). -/

namespace Sys2Proof.Machine

variable {α : Type}

theorem length_overwrite {ws cells : List α} (h : ws.length ≤ cells.length) :
    (overwrite ws cells).length = cells.length := by simp [overwrite, h]

/-- The cells that `overwrite` writes are the first ones. -/
theorem take_overwrite (ws cells : List α) : (overwrite ws cells).take ws.length = ws := by simp [overwrite]

/-- `overwrite` leaves the other cells alone. -/
theorem drop_overwrite (ws cells : List α) : (overwrite ws cells).drop ws.length = cells.drop ws.length := by
  simp [overwrite]

theorem mem_overwrite {ws cells : List α} {x : α} : x ∈ overwrite ws cells ↔ x ∈ ws ∨ x ∈ cells.drop ws.length := by
  simp [overwrite]

/-- `definedWords` answers exactly when the first `n` cells exist and all hold a word, and then with those words. -/
theorem definedWords_eq_some {n : Nat} {cells : List (Option Word)} {ks : List Word} :
    definedWords n cells = some ks ↔ ks.length = n ∧ cells.take n = ks.map some := by
  induction n generalizing cells ks with
  | zero => cases ks <;> simp [definedWords]
  | succ n ih =>
    cases cells with
    | nil => cases ks <;> simp [definedWords]
    | cons c cells =>
      cases c with
      | none => cases ks <;> simp [definedWords]
      | some x =>
        cases ks with
        | nil => simp [definedWords]
        | cons k ks =>
          simp only [definedWords, Option.map_eq_some_iff, List.length_cons, List.take_succ_cons, List.map_cons,
            List.cons.injEq, Option.some.injEq]
          constructor
          · rintro ⟨l, hl, rfl, rfl⟩
            exact ⟨by rw [(ih.1 hl).1], rfl, (ih.1 hl).2⟩
          · rintro ⟨hlen, rfl, htake⟩
            exact ⟨ks, ih.2 ⟨by omega, htake⟩, rfl, rfl⟩

/-- The words written by `overwrite` are the ones `definedWords` then reads. -/
@[simp] theorem definedWords_overwrite (ks : List Word) (cells : List (Option Word)) :
    definedWords ks.length (overwrite (ks.map some) cells) = some ks :=
  definedWords_eq_some.2 ⟨rfl, by simpa using take_overwrite (ks.map some) cells⟩

/-- A store of at least `n` cells whose first `n` all hold a word has an array of `n` words. -/
theorem definedWords_of_isSome {n : Nat} {cells : List (Option Word)} (hn : n ≤ cells.length)
    (h : ∀ x ∈ cells.take n, x.isSome) : ∃ ks, definedWords n cells = some ks ∧ ks.length = n := by
  induction n generalizing cells with
  | zero => exact ⟨[], rfl, rfl⟩
  | succ n ih =>
    cases cells with
    | nil => simp at hn
    | cons c cells =>
      simp only [List.take_succ_cons, List.mem_cons, forall_eq_or_imp, List.length_cons] at h hn
      obtain ⟨x, rfl⟩ := Option.isSome_iff_exists.1 h.1
      obtain ⟨ks, hks, hl⟩ := ih (by omega) h.2
      exact ⟨x :: ks, by simp [definedWords, hks], by simp [hl]⟩

/-- In a live context the array, where it is defined, has `T` words, and they are the first `T` cells. -/
theorem roundKeys_eq_some {s : State} {ks : List Word} (hc : s.ctx ≠ .empty) :
    s.roundKeys = some ks ↔ ks.length = s.t ∧ s.sStore.take s.t = ks.map some := by
  simp [State.roundKeys, hc, definedWords_eq_some]

end Sys2Proof.Machine
end

