-- ==== Sys2Proof/Laws/KeySchedule.lean ====
section
/-! SUPPORT. What the parts of KEY do: the padded key loads exactly when its bytes are written, every array keeps its
length, so that no index leaves it (rules R23, R151, R153 to R157). -/

namespace Sys2Proof.Machine

@[simp] theorem length_addKeyByte (a : Nat) (v : Byte) (l : List Word) : (addKeyByte a v l).length = l.length := by
  simp [addKeyByte]

@[simp] theorem loadPaddedKey_zero (m : Memory 8) (c : Nat) :
    loadPaddedKey m c 0 = some (List.replicate c 0) := rfl

/-- One more key byte: everything `loadPaddedKey` can answer for `a + 1` bytes. -/
theorem loadPaddedKey_succ {m : Memory 8} {c a : Nat} {l : List Word} :
    loadPaddedKey m c (a + 1) = some l ↔
      ∃ l' v, loadPaddedKey m c a = some l' ∧ Memory.read m a = some v ∧ l = addKeyByte a v l' := by
  rw [loadPaddedKey]
  cases loadPaddedKey m c a <;> cases Memory.read m a <;> simp [eq_comm]

theorem length_loadPaddedKey {m : Memory 8} {c b : Nat} {l : List Word} (h : loadPaddedKey m c b = some l) :
    l.length = c := by
  induction b generalizing l with
  | zero => simp at h; simp [← h]
  | succ b ih =>
    obtain ⟨l', v, h', -, rfl⟩ := loadPaddedKey_succ.1 h
    simpa using ih h'

/-- The padded key loads exactly when every key byte holds a value (rule R66). -/
theorem loadPaddedKey_isSome_iff {m : Memory 8} {c b : Nat} :
    (∃ l, loadPaddedKey m c b = some l) ↔ ∀ a < b, (Memory.read m a).isSome := by
  induction b with
  | zero => simp
  | succ b ih =>
    constructor
    · rintro ⟨l, h⟩ a ha
      obtain ⟨l', v, h', hv, -⟩ := loadPaddedKey_succ.1 h
      rcases Nat.lt_succ_iff_lt_or_eq.1 ha with ha | rfl
      · exact ih.1 ⟨l', h'⟩ a ha
      · simp [hv]
    · intro h
      obtain ⟨l', h'⟩ := ih.2 fun a ha => h a (by omega)
      obtain ⟨v, hv⟩ := Option.isSome_iff_exists.1 (h b (by omega))
      exact ⟨_, loadPaddedKey_succ.2 ⟨l', v, h', hv, rfl⟩⟩

/-- The padded key depends on the key bytes alone. -/
theorem loadPaddedKey_congr {m m' : Memory 8} {c b : Nat} (h : ∀ a < b, Memory.read m a = Memory.read m' a) :
    loadPaddedKey m c b = loadPaddedKey m' c b := by
  induction b with
  | zero => rfl
  | succ b ih => rw [loadPaddedKey, loadPaddedKey, ih fun a ha => h a (by omega), h b (by omega)]

@[simp] theorem length_seedChain (x : Word) (n : Nat) : (seedChain x n).length = n := by
  induction n generalizing x with
  | zero => rfl
  | succ n ih => simp [seedChain, ih]

@[simp] theorem length_seedKeys (t : Nat) : (seedKeys t).length = t := by simp [seedKeys]

@[simp] theorem length_mixStep_s (t c i : Nat) (m : Mixing) : (mixStep t c i m).s.length = m.s.length := by
  simp [mixStep]

@[simp] theorem length_mixStep_l (t c i : Nat) (m : Mixing) : (mixStep t c i m).l.length = m.l.length := by
  simp [mixStep]

@[simp] theorem mixSteps_zero (t c : Nat) (m : Mixing) : mixSteps t c 0 m = m := rfl

theorem mixSteps_succ (t c n : Nat) (m : Mixing) : mixSteps t c (n + 1) m = mixStep t c n (mixSteps t c n m) := rfl

@[simp] theorem length_mixSteps_s (t c n : Nat) (m : Mixing) : (mixSteps t c n m).s.length = m.s.length := by
  induction n with
  | zero => rfl
  | succ n ih => simp [mixSteps_succ, ih]

@[simp] theorem length_mixSteps_l (t c n : Nat) (m : Mixing) : (mixSteps t c n m).l.length = m.l.length := by
  induction n with
  | zero => rfl
  | succ n ih => simp [mixSteps_succ, ih]

/-- The mixed array has `T` words. -/
@[simp] theorem length_mixedKey_s (t c : Nat) (l : List Word) : (mixedKey t c l).s.length = t := by simp [mixedKey]

theorem keyCount_pos (r : Nat) : 0 < keyCount r := by simp [keyCount]

theorem paddedCount_pos {b : Nat} (h : b ≠ 0) : 0 < paddedCount b := by simp only [paddedCount]; omega

/-- A key that fits KEYMEM has a padded key that fits `L` (rule R160). -/
theorem paddedCount_le {b : Nat} {s : State} (h : keyFits b s) : paddedCount b ≤ s.params.lCap := by
  simp only [keyFits] at h; simp only [paddedCount, Params.lCap]; omega

end Sys2Proof.Machine
end

