-- ==== Sys2Proof/Laws/Exec.lean ====
section
/-! SUPPORT. What each command can answer: one lemma per meaning, listing every case with its guard. Later proofs cite
these and never unfold a meaning. -/

namespace Sys2Proof.Machine

@[simp] theorem exec_init (r : Nat) (s : State) : exec (.init r) s = execInit r s := rfl
@[simp] theorem exec_key (b : Nat) (s : State) : exec (.key b) s = execKey b s := rfl
@[simp] theorem exec_enc (n : Nat) (s : State) : exec (.enc n) s = execEnc n s := rfl
@[simp] theorem exec_dec (n : Nat) (s : State) : exec (.dec n) s = execDec n s := rfl
@[simp] theorem exec_destroy (s : State) : exec .destroy s = execDestroy s := rfl

/-! ### One equation per guard -/

theorem execInit_live {r : Nat} {s : State} (hc : s.ctx ≠ .empty) : execInit r s = .next (raiseFault .eState s) := by
  simp [execInit, hc]

theorem execInit_tooMany {r : Nat} {s : State} (hc : s.ctx = .empty) (hr : ¬ roundsFit r s) :
    execInit r s = .next (raiseFault .eAlloc s) := by simp [execInit, hc, hr]

theorem execInit_claims {r : Nat} {s : State} (hc : s.ctx = .empty) (hr : roundsFit r s) :
    execInit r s = .next (complete (claimContext r s)) := by simp [execInit, hc, hr]

theorem execDestroy_empty {s : State} (hc : s.ctx = .empty) : execDestroy s = .next (raiseFault .eState s) := by
  simp [execDestroy, hc]

theorem execDestroy_live {s : State} (hc : s.ctx ≠ .empty) :
    execDestroy s = .next (complete (releaseContext (scrubKeys s))) := by simp [execDestroy, hc]

theorem execKey_empty {b : Nat} {s : State} (hc : s.ctx = .empty) : execKey b s = .next (raiseFault .eState s) := by
  simp [execKey, hc]

theorem execKey_noBytes {s : State} (hc : s.ctx ≠ .empty) : execKey 0 s = .next (raiseFault .eKeylen0 s) := by
  simp [execKey, hc]

theorem execKey_tooLong {b : Nat} {s : State} (hc : s.ctx ≠ .empty) (hb : b ≠ 0) (hf : ¬ keyFits b s) :
    execKey b s = .next (raiseFault .eAlloc s) := by simp [execKey, hc, hb, hf]

theorem execKey_unwritten {b : Nat} {s : State} (hc : s.ctx ≠ .empty) (hb : b ≠ 0) (hf : keyFits b s)
    (hl : loadPaddedKey s.keymem (paddedCount b) b = none) : execKey b s = .refused .unwrittenKeyByte := by
  simp [execKey, hc, hb, hf, hl]

theorem execKey_installs {b : Nat} {s : State} {l : List Word} (hc : s.ctx ≠ .empty) (hb : b ≠ 0) (hf : keyFits b s)
    (hl : loadPaddedKey s.keymem (paddedCount b) b = some l) :
    execKey b s = .next (complete (installKeys (paddedCount b) (mixedKey s.t (paddedCount b) l).s s)) := by
  simp [execKey, hc, hb, hf, hl]

section Cipher

variable {f : List Word → Nat → Block → Block} {n : Nat} {s : State}

theorem runCipher_empty (hc : s.ctx = .empty) : runCipher f n s = .next (raiseFault .eState s) := by
  simp [runCipher, hc]

theorem runCipher_alloc (hc : s.ctx = .alloc) : runCipher f n s = .next (raiseFault .eNokey s) := by
  simp [runCipher, hc]

theorem runCipher_outside (hc : s.ctx = .keyed) (hf : ¬ blocksFit n s) :
    runCipher f n s = .next (raiseFault .eBounds s) := by simp [runCipher, hc, hf]

theorem runCipher_undefined (hc : s.ctx = .keyed) (hf : blocksFit n s) (hk : s.roundKeys = none) :
    runCipher f n s = .refused .undefinedRoundKey := by simp [runCipher, hc, hf, hk]

theorem runCipher_unwritten {ks : List Word} (hc : s.ctx = .keyed) (hf : blocksFit n s) (hk : s.roundKeys = some ks)
    (hm : transformBlocks (f ks s.nr.toNat) s.base n s.buf = none) :
    runCipher f n s = .refused .unwrittenBufWord := by simp [runCipher, hc, hf, hk, hm]

theorem runCipher_stores {ks : List Word} {m : Memory 32} (hc : s.ctx = .keyed) (hf : blocksFit n s)
    (hk : s.roundKeys = some ks) (hm : transformBlocks (f ks s.nr.toNat) s.base n s.buf = some m) :
    runCipher f n s = .next (complete (storeBlocks m s)) := by simp [runCipher, hc, hf, hk, hm]

end Cipher

/-! ### Everything a command can do -/

/-- Everything INIT can do. -/
theorem execInit_cases (r : Nat) (s : State) :
    (s.ctx ≠ .empty ∧ execInit r s = .next (raiseFault .eState s)) ∨
    (s.ctx = .empty ∧ ¬ roundsFit r s ∧ execInit r s = .next (raiseFault .eAlloc s)) ∨
    (s.ctx = .empty ∧ roundsFit r s ∧ execInit r s = .next (complete (claimContext r s))) := by
  by_cases h1 : s.ctx = .empty <;> by_cases h2 : roundsFit r s <;> simp [execInit, h1, h2]

/-- Everything DESTROY can do. -/
theorem execDestroy_cases (s : State) :
    (s.ctx = .empty ∧ execDestroy s = .next (raiseFault .eState s)) ∨
    (s.ctx ≠ .empty ∧ execDestroy s = .next (complete (releaseContext (scrubKeys s)))) := by
  by_cases h1 : s.ctx = .empty <;> simp [execDestroy, h1]

/-- Everything KEY can do. -/
theorem execKey_cases (b : Nat) (s : State) :
    (s.ctx = .empty ∧ execKey b s = .next (raiseFault .eState s)) ∨
    (s.ctx ≠ .empty ∧ b = 0 ∧ execKey b s = .next (raiseFault .eKeylen0 s)) ∨
    (s.ctx ≠ .empty ∧ b ≠ 0 ∧ ¬ keyFits b s ∧ execKey b s = .next (raiseFault .eAlloc s)) ∨
    (s.ctx ≠ .empty ∧ b ≠ 0 ∧ keyFits b s ∧ loadPaddedKey s.keymem (paddedCount b) b = none ∧
      execKey b s = .refused .unwrittenKeyByte) ∨
    (s.ctx ≠ .empty ∧ b ≠ 0 ∧ keyFits b s ∧ ∃ l, loadPaddedKey s.keymem (paddedCount b) b = some l ∧
      execKey b s =
        .next (complete (installKeys (paddedCount b) (mixedKey s.t (paddedCount b) l).s s))) := by
  by_cases h1 : s.ctx = .empty
  · simp [execKey, h1]
  by_cases h2 : b = 0
  · simp [execKey, h1, h2]
  by_cases h3 : keyFits b s
  · cases h4 : loadPaddedKey s.keymem (paddedCount b) b <;> simp [execKey, h1, h2, h3, h4]
  · simp [execKey, h1, h2, h3]

/-- Everything the shape of ENC and DEC can do. -/
theorem runCipher_cases (f : List Word → Nat → Block → Block) (n : Nat) (s : State) :
    (s.ctx = .empty ∧ runCipher f n s = .next (raiseFault .eState s)) ∨
    (s.ctx = .alloc ∧ runCipher f n s = .next (raiseFault .eNokey s)) ∨
    (s.ctx = .keyed ∧ ¬ blocksFit n s ∧ runCipher f n s = .next (raiseFault .eBounds s)) ∨
    (s.ctx = .keyed ∧ blocksFit n s ∧ s.roundKeys = none ∧ runCipher f n s = .refused .undefinedRoundKey) ∨
    (s.ctx = .keyed ∧ blocksFit n s ∧ (∃ ks, s.roundKeys = some ks ∧
      transformBlocks (f ks s.nr.toNat) s.base n s.buf = none) ∧ runCipher f n s = .refused .unwrittenBufWord) ∨
    (s.ctx = .keyed ∧ blocksFit n s ∧ ∃ ks m, s.roundKeys = some ks ∧
      transformBlocks (f ks s.nr.toNat) s.base n s.buf = some m ∧
      runCipher f n s = .next (complete (storeBlocks m s))) := by
  cases h1 : s.ctx with
  | empty => simp [runCipher, h1]
  | alloc => simp [runCipher, h1]
  | keyed =>
    by_cases h2 : blocksFit n s
    · cases h3 : s.roundKeys with
      | none => simp [runCipher, h1, h2, h3]
      | some ks => cases h4 : transformBlocks (f ks s.nr.toNat) s.base n s.buf <;> simp [runCipher, h1, h2, h3, h4]
    · simp [runCipher, h1, h2]

/-- How a command that answers a next state ends: either a fault that changed the status alone, or a completion of one
of the five effects. -/
inductive Ended (i : Instr) (s : State) : State → Prop
  | faulted (code : Result) (h : code ≠ .ok) : Ended i s (raiseFault code s)
  | claimed (r : Nat) (hi : i = .init r) (hc : s.ctx = .empty) (hr : roundsFit r s) :
      Ended i s (complete (claimContext r s))
  | keyed (b : Nat) (l : List Word) (hi : i = .key b) (hc : s.ctx ≠ .empty) (hb : b ≠ 0) (hf : keyFits b s)
      (hl : loadPaddedKey s.keymem (paddedCount b) b = some l) :
      Ended i s (complete (installKeys (paddedCount b) (mixedKey s.t (paddedCount b) l).s s))
  | stored (f : List Word → Nat → Block → Block) (n : Nat) (ks : List Word) (m : Memory 32)
      (hi : i = .enc n ∧ f = encBlock ∨ i = .dec n ∧ f = decBlock) (hc : s.ctx = .keyed) (hf : blocksFit n s)
      (hk : s.roundKeys = some ks) (hm : transformBlocks (f ks s.nr.toNat) s.base n s.buf = some m) :
      Ended i s (complete (storeBlocks m s))
  | destroyed (hi : i = .destroy) (hc : s.ctx ≠ .empty) : Ended i s (complete (releaseContext (scrubKeys s)))

theorem ended_of_runCipher {f : List Word → Nat → Block → Block} {n : Nat} {i : Instr} {s t : State}
    (hi : i = .enc n ∧ f = encBlock ∨ i = .dec n ∧ f = decBlock) (h : runCipher f n s = .next t) : Ended i s t := by
  rcases runCipher_cases f n s with ⟨-, e⟩ | ⟨-, e⟩ | ⟨-, -, e⟩ | ⟨-, -, -, e⟩ | ⟨-, -, -, e⟩ | ⟨hc, hf, ks, m, hk, hm, e⟩ <;>
    rw [e] at h <;> cases h
  · exact .faulted _ (by decide)
  · exact .faulted _ (by decide)
  · exact .faulted _ (by decide)
  · exact .stored f n ks m hi hc hf hk hm

/-- The inversion lemma of `exec`. -/
theorem exec_ended {i : Instr} {s t : State} (h : exec i s = .next t) : Ended i s t := by
  cases i with
  | init r =>
    rw [exec_init] at h
    rcases execInit_cases r s with ⟨-, e⟩ | ⟨-, -, e⟩ | ⟨hc, hr, e⟩ <;> rw [e] at h <;> cases h
    · exact .faulted _ (by decide)
    · exact .faulted _ (by decide)
    · exact .claimed r rfl hc hr
  | key b =>
    rw [exec_key] at h
    rcases execKey_cases b s with ⟨-, e⟩ | ⟨-, -, e⟩ | ⟨-, -, -, e⟩ | ⟨-, -, -, -, e⟩ | ⟨hc, hb, hf, l, hl, e⟩ <;>
      rw [e] at h <;> cases h
    · exact .faulted _ (by decide)
    · exact .faulted _ (by decide)
    · exact .faulted _ (by decide)
    · exact .keyed b l rfl hc hb hf hl
  | enc n => exact ended_of_runCipher (.inl ⟨rfl, rfl⟩) h
  | dec n => exact ended_of_runCipher (.inr ⟨rfl, rfl⟩) h
  | destroy =>
    rw [exec_destroy] at h
    rcases execDestroy_cases s with ⟨-, e⟩ | ⟨hc, e⟩ <;> rw [e] at h <;> cases h
    · exact .faulted _ (by decide)
    · exact .destroyed rfl hc

end Sys2Proof.Machine
end

