-- ==== Sys2Proof/Laws/PerInstr.lean ====
section
/-! SUPPORT. Per-instruction lemmas. Family `EncodedFields`: the encoding of a well-formed command has the command's
operation code in `OP`, zero in `ZERO` and its operand in `N` (rules R92, R93). -/

namespace Sys2Proof.Laws.EncodedFields

/-- The fields of the encoded command, each as a number. -/
def Statement (i : Instr) : Prop :=
  i.WellFormed →
    (opField (encode i)).toNat = i.opcode ∧ (zeroField (encode i)).toNat = 0 ∧ (nField (encode i)).toNat = i.operand

/-- The fields of a word that is an operation code over 28 bits and a 16-bit operand. -/
theorem fields_of_value {code n : Nat} (hc : code < 16) (hn : n ≤ 65535) :
    (opField (BitVec.ofNat 32 (code * 2 ^ 28 + n))).toNat = code ∧
    (zeroField (BitVec.ofNat 32 (code * 2 ^ 28 + n))).toNat = 0 ∧
    (nField (BitVec.ofNat 32 (code * 2 ^ 28 + n))).toNat = n := by
  rw [opField_toNat, zeroField_toNat, nField_toNat, BitVec.toNat_ofNat]
  omega

theorem init (r : Nat) : Statement (.init r) := fun h => fields_of_value (code := 1) (by omega) h
theorem key (b : Nat) : Statement (.key b) := fun h => fields_of_value (code := 2) (by omega) h
theorem enc (n : Nat) : Statement (.enc n) := fun h => fields_of_value (code := 3) (by omega) h
theorem dec (n : Nat) : Statement (.dec n) := fun h => fields_of_value (code := 4) (by omega) h
theorem destroy : Statement .destroy := fun _ => fields_of_value (code := 5) (by omega) (Nat.zero_le _)

end Sys2Proof.Laws.EncodedFields
end

