-- ==== Sys2Proof/Laws/Step.lean ====
section
/-! SUPPORT. What one step is, by the host's next move, and the host moves on the memories by their guards. -/

namespace Sys2Proof.Machine

theorem step_nil {s : State} (h : s.pending = []) : step s = .next s := by
  simp [step, h]

theorem step_cons {s : State} {m : HostMove} {rest : List HostMove} (h : s.pending = m :: rest) :
    step s = hostMove m { s with pending := rest } := by
  simp [step, h]

theorem onKeyByte_ok {s t : State} {a : Nat} (hb : s.busy = false) (ha : a < s.params.keyMaxBytes) :
    onKeyByte a s t = .next t := by
  simp [onKeyByte, hb, ha]

theorem onBufWord_ok {s t : State} {j : Nat} (hb : s.busy = false) (hj : j < s.params.bufWords) :
    onBufWord j s t = .next t := by
  simp [onBufWord, hb, hj]

/-- A move on KEYMEM answers next only on a byte that exists and while the engine is idle. -/
theorem onKeyByte_next {s t u : State} {a : Nat} (h : onKeyByte a s t = .next u) :
    u = t ∧ s.busy = false ∧ a < s.params.keyMaxBytes := by
  unfold onKeyByte at h
  split at h
  · cases h
  · split at h
    · cases h; exact ⟨rfl, by simpa using ‹¬ s.busy = true›, ‹_›⟩
    · cases h

/-- A move on BUF answers next only on a word that exists and while the engine is idle. -/
theorem onBufWord_next {s t u : State} {j : Nat} (h : onBufWord j s t = .next u) :
    u = t ∧ s.busy = false ∧ j < s.params.bufWords := by
  unfold onBufWord at h
  split at h
  · cases h
  · split at h
    · cases h; exact ⟨rfl, by simpa using ‹¬ s.busy = true›, ‹_›⟩
    · cases h

/-- Everything the acceptance of a command word can do: fault `E_ILLCMD`, or run the command it decodes to. -/
theorem acceptCommand_cases (w : Word) (s : State) :
    ((∃ e, decode w = .error e) ∧ acceptCommand w s = .next (raiseFault .eIllcmd s)) ∨
    (∃ i, decode w = .ok i ∧ acceptCommand w s = exec i { s with busy := true }) := by
  unfold acceptCommand
  cases decode w with
  | error e => exact .inl ⟨⟨e, rfl⟩, rfl⟩
  | ok i => exact .inr ⟨i, rfl, rfl⟩

end Sys2Proof.Machine
end

