-- ==== Sys2Proof/Tests/Slice0.lean ====
section
/-! SUPPORT. Small tests against the spec's own numbers (95_test_vectors.md and the rules' worked examples), and for each
obligation with hypotheses a concrete instance that meets them. -/

namespace Sys2Proof.Tests

open Sys2Proof.Machine

/-! ## Well-formedness: an operand one above the 16-bit field is refused (R94) -/

theorem test_wellFormed_init_refuses : ¬ Instr.WellFormed (.init 65536) := by decide
theorem test_wellFormed_key_refuses : ¬ Instr.WellFormed (.key 65536) := by decide
theorem test_wellFormed_enc_refuses : ¬ Instr.WellFormed (.enc 65536) := by decide
theorem test_wellFormed_dec_refuses : ¬ Instr.WellFormed (.dec 65536) := by decide

/-! ## Decoding: words written out from R92 and R93, with 95_test_vectors.md section 2.7 -/

theorem test_decode_init : decode 0b0001_000000000000_0000000000001010#32 = .ok (.init 10) := by rfl
theorem test_decode_init_largest : decode 0b0001_000000000000_1111111111111111#32 = .ok (.init 65535) := by rfl
theorem test_decode_key : decode 0b0010_000000000000_0000000000000101#32 = .ok (.key 5) := by rfl
theorem test_decode_enc : decode 0b0011_000000000000_0000000000000100#32 = .ok (.enc 4) := by rfl
theorem test_decode_dec : decode 0b0100_000000000000_0000000000000010#32 = .ok (.dec 2) := by rfl
theorem test_decode_destroy : decode 0b0101_000000000000_0000000000000000#32 = .ok .destroy := by rfl
theorem test_decode_zero_word : decode 0x00000000#32 = .error .unusedOp := by rfl
theorem test_decode_ones_word : decode 0xFFFFFFFF#32 = .error .reservedNotZero := by rfl
theorem test_decode_op6 : decode 0x60000000#32 = .error .unusedOp := by rfl
theorem test_decode_reserved_bit : decode 0x30010001#32 = .error .reservedNotZero := by rfl
theorem test_decode_reserved_field : decode 0x1FFF0000#32 = .error .reservedNotZero := by rfl
theorem test_decode_destroy_operand : decode 0x5000FFFF#32 = .error .destroyOperand := by rfl

/-! ## The datapath: 95_test_vectors.md section 2.1 -/

theorem test_add32 : add32 0xB7E15163#32 0x9E3779B9#32 = 0x5618CB1C#32 ∧ add32 0x80000000#32 0x80000000#32 = 0 := by
  decide
theorem test_sub32 : sub32 0x00000000#32 0x00000001#32 = 0xFFFFFFFF#32 ∧
    sub32 0x00000001#32 0xFFFFFFFF#32 = 0x00000002#32 := by decide
theorem test_xor32 : xor32 0xFFFF0000#32 0x0F0F0F0F#32 = 0xF0F00F0F#32 := by decide
theorem test_amt5 : amt5 0x12345678#32 = 24 ∧ amt5 0x00000020#32 = 0 ∧ amt5 0xFFFFFFFF#32 = 31 := by decide
theorem test_rotl32 : rotl32 0x12345678#32 4 = 0x23456781#32 ∧ rotl32 0x80000001#32 31 = 0xC0000000#32 ∧
    rotl32 0x80000001#32 0 = 0x80000001#32 := by decide
theorem test_rotr32 : rotr32 0x12345678#32 4 = 0x81234567#32 ∧ rotr32 0xB7E15163#32 3 = 0x76FC2A2C#32 ∧
    rotr32 0x80000001#32 0 = 0x80000001#32 := by decide

/-! ## Memories, key packing, seeds, blocks -/

theorem test_write_keeps_order :
    Memory.write [(1, 0x11#8), (3, 0x33#8)] 2 0x22#8 = [(1, 0x11#8), (2, 0x22#8), (3, 0x33#8)] := by decide

theorem test_write_replaces : Memory.write [(1, 0x11#8), (3, 0x33#8)] 3 0x44#8 = [(1, 0x11#8), (3, 0x44#8)] := by decide

/-- The nine bytes of 95_test_vectors.md section 2.2. -/
def nineBytes : Memory 8 :=
  [(0, 0x11), (1, 0x22), (2, 0x33), (3, 0x44), (4, 0x55), (5, 0x66), (6, 0x77), (7, 0x88), (8, 0x99)]

theorem test_packing :
    loadPaddedKey nineBytes 3 9 = some [0x44332211#32, 0x88776655#32, 0x00000099#32] ∧
    loadPaddedKey nineBytes 2 5 = some [0x44332211#32, 0x00000055#32] := by decide +kernel

theorem test_seeds : seedKeys 4 = [0xB7E15163#32, 0x5618CB1C#32, 0xF45044D5#32, 0x9287BE8E#32] := by decide +kernel

/-- Schedule K3 of 95_test_vectors.md section 2.3. -/
def k3 : List Word := [0xCD8DF8F1, 0x02AA6A78, 0x902EB59A, 0x776BCD4A]

/-- The row "rotation by 0" of section 2.4. -/
theorem test_encBlock_rotation_by_zero :
    encBlock k3 1 { d0 := 0x44A65D87, d1 := 0xFD5595A8 } = { d0 := 0xA2630BF2, d1 := 0xA6B656D6 } := by decide +kernel

/-- Section 2.3: steps 0 and 1 of the trace of `"ABCDE"` at one round. -/
theorem test_mixing_trace :
    let m := mixSteps 4 2 2 { s := seedKeys 4, l := [0x44434241, 0x00000045], a := 0, b := 0 }
    m.a = 0xAC687F26#32 ∧ m.b = 0x722CD9A4#32 ∧ m.l[0]? = some 0xC069B9AB#32 := by decide +kernel

/-- What the host writes for `LDKEY "ABCDE"` (program 1, line 3) and `SETBASE 2` (line 11). -/
theorem test_assembly :
    assemble (.ldKeyText "ABCDE") =
      [.writeKey 0 0x41, .writeKey 1 0x42, .writeKey 2 0x43, .writeKey 3 0x44, .writeKey 4 0x45] ∧
    assemble (.setBase 2) = [.writeReg .bbase 2#32] ∧ assemble (.rdBuf 6 2) = [.readBuf 6, .readBuf 7] := by
  decide +kernel

/-! ## Small machines -/

/-- The state an answer goes on with. -/
def after : Answer → Option State
  | .next t => some t
  | _ => none

/-- An answer that goes on, with a state of which a checked property holds. -/
theorem exists_of_after {x : Answer} {p : State → Bool} (h : (after x).any p = true) :
    ∃ t, x = .next t ∧ p t = true := by
  cases x with
  | next t => exact ⟨t, rfl, h⟩
  | fault f => cases h
  | refused r => cases h

/-- The refusal of an answer, if it is one. -/
def refusal : Answer → Option Refusal
  | .refused r => some r
  | _ => none

/-- The fault of an answer, if it is one. -/
def faultOf : Answer → Option Fault
  | .fault f => some f
  | _ => none

/-- A small legal machine after reset. -/
def fresh : State := State.resetWith { roundsMax := 1, keyMaxBytes := 20, bufBlocks := 2 }

/-- `INIT 1` done, the key bytes `01 02 .. 14` of schedule K6 written. -/
def allocated : State :=
  { fresh with
    ctx := .alloc, nr := 1, sStore := [none, none, none, none]
    keymem := (List.range 20).map (fun a => (a, BitVec.ofNat 8 (a + 1))) }

/-- One round, schedule K3, both blocks of the buffer written. -/
def keyed : State :=
  { fresh with
    ctx := .keyed, nr := 1, sStore := k3.map some
    keymem := [(0, 0x41), (1, 0x42), (2, 0x43), (3, 0x44), (4, 0x45), (5, 0x00)]
    buf := [(0, 0), (1, 1), (2, 0), (3, 0)] }

/-- No rounds, schedule K1, the block of program 2 written. -/
def keyedNoRounds : State :=
  { fresh with
    ctx := .keyed, nr := 0, sStore := [some 0x4DBA7B7A, some 0x1E1D1179, some 0, some 0]
    keymem := [(0, 0x00)], buf := [(0, 0), (1, 1)] }

/-- The host's next move. -/
def about (s : State) (m : HostMove) : State := { s with pending := [m] }

/-- A command is running. -/
def running (s : State) : State := { s with busy := true }

/-! ## One step per command, at most two tests each -/

/-- Program 1, line 2. -/
theorem test_init_status :
    (after (step ((State.reset).withFetchWord 32 0x1000000A))).map
      (fun t => (statusWord t, t.sStore.take 23)) =
      some (0x00000A02#32, List.replicate 22 none ++ [some 0]) := by decide +kernel

/-- Program 3, line 13: the live context and its keys survive. -/
theorem test_init_on_live_context :
    (after (exec (.init 1) keyed)).map (fun t => (t.res, t.fault, t.sStore)) =
      some (.eState, true, k3.map some) := by decide +kernel

/-- Schedule K6: more padded-key words than round keys. -/
theorem test_key_long_key :
    (after (exec (.key 20) allocated)).map (fun t => (t.ctx, t.sStore, t.lStore, t.a)) =
      some (.keyed, [some 0x5488FFD8, some 0x46D82214, some 0x842031CD, some 0xAE006F0C], [0, 0, 0, 0, 0], 0) := by
  decide +kernel

/-- R162: `KEY 1` with no rounds and the key byte `00`; the store's other cells stay zero. -/
theorem test_key_no_rounds :
    (after (exec (.key 1) { keyedNoRounds with ctx := .alloc, sStore := [none, none, some 0, some 0] })).map
      (fun t => t.sStore) = some [some 0x4DBA7B7A, some 0x1E1D1179, some 0, some 0] := by decide +kernel

/-- Section 2.4, schedule K3, two rows: blocks 0 and 1. -/
theorem test_enc_two_blocks :
    (after (exec (.enc 2) keyed)).map (fun t => (t.buf, t.res)) =
      some ([(0, 0xA1CD04BF), (1, 0xC91F84AD), (2, 0x19FDDD2C), (3, 0xF2E10EFF)], .ok) := by decide +kernel

/-- Section 2.8, last row: the sum does not wrap. -/
theorem test_enc_bounds_do_not_wrap :
    (after (exec (.enc 65535) { keyed with bbase := 65535 })).map (fun t => (t.res, t.buf)) =
      some (.eBounds, keyed.buf) := by decide +kernel

/-- Section 2.5, schedule K3, started at block 1. -/
theorem test_dec_from_block_one :
    (after (exec (.dec 1) { keyed with bbase := 1 })).map (fun t => t.buf) =
      some [(0, 0), (1, 1), (2, 0x002FB218), (3, 0x85E9C83E)] := by decide +kernel

/-- Section 2.8: no key is reported before the bounds. -/
theorem test_dec_no_key_before_bounds :
    (after (exec (.dec 9) allocated)).map (fun t => (t.res, t.ctx)) = some (.eNokey, .alloc) := by decide +kernel

/-- R191, R192: the keys are zero, the context is gone, the buffer stays. -/
theorem test_destroy_scrubs :
    (after (exec .destroy keyed)).map (fun t => (t.sStore, t.ctx, t.nr, t.buf)) =
      some ([some 0, some 0, some 0, some 0], .empty, 0, keyed.buf) := by decide +kernel

/-- Program 3, line 6. -/
theorem test_destroy_nothing :
    (after (step (State.reset.withFetchWord 32 0x50000000))).map statusWord = some 0x00000028#32 := by decide +kernel

/-- Program 3, line 8: an illegal word is reported before the lifecycle state is looked at. -/
theorem test_illegal_word :
    (after (step (State.reset.withFetchWord 32 0x5000FFFF))).map statusWord = some 0x00000018#32 := by decide +kernel

/-- R34: a write dropped while a command runs sets `OVR` and `FAULT`. -/
theorem test_dropped_write :
    (after (step (about (running keyed) (.writeReg .cmd 0x50000000#32)))).map statusWord =
      some 0x0001010D#32 := by decide +kernel

/-- R66, R67: a command that would read an unwritten cell is refused. -/
theorem test_unwritten_refused :
    refusal (exec (.key 7) keyed) = some .unwrittenKeyByte ∧
    refusal (exec (.enc 2) { keyed with buf := [(0, 0), (1, 1), (2, 0)] }) = some .unwrittenBufWord := by decide +kernel

/-- A state that breaks the invariant: `KEYED` with a live cell that holds no value. -/
theorem test_undefined_round_key_refused :
    refusal (exec (.dec 1) { keyed with sStore := [some 0, none, some 0, some 0] }) = some .undefinedRoundKey := by
  decide +kernel

/-- Cells that do not exist, and a host access while a command runs. -/
theorem test_host_move_faults :
    faultOf (step (about keyed (.writeKey 20 0))) = some (.noSuchKeyByte 20) ∧
    faultOf (step (about keyed (.readBuf 4))) = some (.noSuchBufWord 4) ∧
    faultOf (step (about (running keyed) (.readBuf 0))) = some .memoryRace := by decide +kernel

/-! ## Witnesses: states and operands that meet the hypotheses of the obligations -/

theorem witness_DecodeEncodeRoundTrip :
    Instr.WellFormed (.init 65535) ∧ Instr.WellFormed (.key 65535) ∧ Instr.WellFormed (.enc 0) ∧
    Instr.WellFormed (.dec 65535) ∧ Instr.WellFormed .destroy := by decide

theorem witness_DecodeEncodeRoundTrip_legal_word : decode 0x1000FFFF#32 = .ok (.init 65535) := by rfl

theorem witness_IllegalWordsFaultInEveryState :
    decode 0x60000000#32 = .error .unusedOp ∧ decode 0x10010000#32 = .error .reservedNotZero ∧
    decode 0x50000001#32 = .error .destroyOperand ∧ keyed.busy = false ∧
    (about keyed (.writeReg .cmd 0x60000000#32)).pending = .writeReg .cmd 0x60000000#32 :: [] := by
  exact ⟨rfl, rfl, rfl, rfl, rfl⟩

theorem witness_StepRunsDecodedCommand :
    (about keyed (.writeReg .cmd 0x30000002#32)).busy = false ∧
    (about keyed (.writeReg .cmd 0x30000002#32)).pending = .writeReg .cmd 0x30000002#32 :: [] ∧
    decode 0x30000002#32 = .ok (.enc 2) ∧ decodeTableWord 32 0x1000000A = some (.init 10) := by
  exact ⟨rfl, rfl, rfl, rfl⟩

theorem witness_StepIdlesWithoutMoves : keyed.pending = [] := by decide

/-- One state for each clause of `CmdRegister`, `BbaseRegister` and `StatusRegister`. -/
theorem witness_port_registers :
    (about keyed (.writeReg .cmd 0#32)).busy = false ∧
    (about (running keyed) (.writeReg .cmd 0#32)).busy = true ∧
    (about (running keyed) (.writeReg .bbase 0x1FFFF#32)).busy = true ∧
    (about (running keyed) (.writeReg .bbase 0x1FFFF#32)).pending = .writeReg .bbase 0x1FFFF#32 :: [] ∧
    (about keyed (.readReg .cmd)).pending = .readReg .cmd :: [] ∧
    (about keyed (.readReg .bbase)).pending = .readReg .bbase :: [] ∧
    (about keyed (.readReg .status)).pending = .readReg .status :: [] ∧
    (about keyed (.writeReg .status 0#32)).pending = .writeReg .status 0#32 :: [] := by decide

theorem witness_BbaseRegister_every_command :
    ([.init 1, .key 5, .enc 2, .dec 2, .destroy] : List Instr).all (fun i => (after (exec i keyed)).isSome) = true := by
  decide +kernel

/-- The last byte, the first byte that does not exist. -/
theorem witness_HostMovesOnKeymem :
    keyed.busy = false ∧ 19 < keyed.params.keyMaxBytes ∧ keyed.params.keyMaxBytes ≤ 20 ∧
    (about keyed (.writeKey 19 0xAA#8)).pending = .writeKey 19 0xAA#8 :: [] ∧
    (about allocated (.readKey 19)).pending = .readKey 19 :: [] ∧ allocated.busy = false ∧
    19 < allocated.params.keyMaxBytes ∧ Memory.read allocated.keymem 19 = some 20#8 := by decide +kernel

/-- The last word, the first word that does not exist. -/
theorem witness_HostMovesOnBuf :
    keyed.busy = false ∧ 3 < 2 * keyed.params.bufBlocks ∧ 2 * keyed.params.bufBlocks ≤ 4 ∧
    (about keyed (.writeBuf 3 0xAA#32)).pending = .writeBuf 3 0xAA#32 :: [] ∧
    (about keyed (.readBuf 3)).pending = .readBuf 3 :: [] ∧ Memory.read keyed.buf 3 = some 0#32 := by decide

/-- The last byte and the last word, neither written. -/
theorem witness_UnwrittenReadsAnswerNone :
    (about keyed (.readKey 19)).pending = .readKey 19 :: [] ∧ keyed.busy = false ∧ 19 < keyed.params.keyMaxBytes ∧
    Memory.read keyed.keymem 19 = none ∧
    (about keyedNoRounds (.readBuf 3)).pending = .readBuf 3 :: [] ∧ keyedNoRounds.busy = false ∧
    3 < 2 * keyedNoRounds.params.bufBlocks ∧ Memory.read keyedNoRounds.buf 3 = none := by decide

theorem witness_MissingOrBusyCellsFault :
    (running (about keyed (.writeKey 0 0#8))).busy = true ∧
    (about keyed (.writeKey 20 0#8)).busy = false ∧ keyed.params.keyMaxBytes ≤ 20 ∧
    (running (about keyed (.writeBuf 0 0#32))).busy = true ∧
    (about keyed (.readBuf 4)).pending = .readBuf 4 :: [] ∧ 2 * keyed.params.bufBlocks ≤ 4 := by decide

theorem witness_HostResetRestoresResetValues : (about keyed .reset).pending = .reset :: [] := by decide

/-- As many bytes as KEYMEM has. -/
theorem witness_LdkeyLoadsItsBytes :
    let vs : List Byte := List.replicate 20 0x5A#8
    let s : State := { keyed with pending := assemble (.ldKey vs) }
    s.busy = false ∧ vs.length = 20 ∧ vs.length ≤ s.params.keyMaxBytes ∧ s.pending = assemble (.ldKey vs) := by
  decide +kernel

/-- Each clause, at the operand where the checks meet. -/
theorem witness_FirstFailingCheckIsReported :
    decode 0x5000FFFF#32 = .error .destroyOperand ∧
    keyed.ctx ≠ .empty ∧ fresh.ctx = .empty ∧ fresh.params.roundsMax < 2 ∧ allocated.ctx ≠ .empty ∧
    allocated.params.keyMaxBytes < 21 ∧ allocated.ctx = .alloc ∧ keyed.ctx = .keyed ∧
    keyed.params.bufBlocks < keyed.bbase.toNat + 3 := by
  refine ⟨rfl, ?_⟩; decide

theorem witness_FaultChangesOnlyTheStatus : ∃ t, exec (.init 1) keyed = .next t ∧ t.res ≠ .ok := by
  obtain ⟨t, h, p⟩ := exists_of_after (x := exec (.init 1) keyed) (p := fun t => decide (t.res ≠ .ok)) (by decide +kernel)
  exact ⟨t, h, of_decide_eq_true p⟩

theorem witness_FaultChangesOnlyTheStatus_word : ∃ t, acceptCommand 0#32 keyed = .next t ∧ t.res ≠ .ok := by
  obtain ⟨t, h, p⟩ := exists_of_after (x := acceptCommand 0#32 keyed) (p := fun t => decide (t.res ≠ .ok))
    (by decide +kernel)
  exact ⟨t, h, of_decide_eq_true p⟩

/-- A sticky state, and moves that are and are not reset. -/
theorem witness_StickyBitsLastUntilReset :
    let s : State := { about keyed (.writeReg .cmd 0x40000001#32) with fault := true, ovr := true }
    let r : State := { about keyed .reset with fault := true, ovr := true }
    s.fault = true ∧ s.ovr = true ∧ (after (step s)).isSome = true ∧ s.pending ≠ [.reset] ∧
    (after (step r)).isSome = true ∧ r.pending = .reset :: [] := by decide +kernel

theorem witness_EngineWorksAfterAFault :
    (∃ t, exec (.enc 3) keyed = .next t ∧ t.res ≠ .ok) ∧ ∃ u, exec (.enc 2) keyed = .next u ∧ u.res = .ok := by
  obtain ⟨t, h, p⟩ := exists_of_after (x := exec (.enc 3) keyed) (p := fun t => decide (t.res ≠ .ok)) (by decide +kernel)
  obtain ⟨u, k, q⟩ := exists_of_after (x := exec (.enc 2) keyed) (p := fun t => decide (t.res = .ok)) (by decide +kernel)
  exact ⟨⟨t, h, of_decide_eq_true p⟩, ⟨u, k, of_decide_eq_true q⟩⟩

/-- The fault of an illegal word, and a legal word the state before it completes. -/
theorem witness_EngineWorksAfterAFault_word :
    decode 0x60000000#32 = .error .unusedOp ∧ (∃ t, acceptCommand 0x60000000#32 keyed = .next t ∧ t.res ≠ .ok) ∧
    ∃ u, acceptCommand 0x40000002#32 keyed = .next u ∧ u.res = .ok := by
  obtain ⟨t, h, p⟩ := exists_of_after (x := acceptCommand 0x60000000#32 keyed) (p := fun t => decide (t.res ≠ .ok))
    (by decide +kernel)
  obtain ⟨u, k, q⟩ := exists_of_after (x := acceptCommand 0x40000002#32 keyed) (p := fun t => decide (t.res = .ok))
    (by decide +kernel)
  exact ⟨rfl, ⟨t, h, of_decide_eq_true p⟩, ⟨u, k, of_decide_eq_true q⟩⟩

/-- Every cell of the table, each operand at the end of its range. -/
theorem witness_LifecycleTable :
    1 ≤ keyed.params.roundsMax ∧ 1 ≤ 20 ∧ 20 ≤ keyed.params.keyMaxBytes ∧ 20 ≤ allocated.params.keyMaxBytes ∧
    keyed.bbase.toNat + 2 ≤ keyed.params.bufBlocks ∧
    ([.init 1, .key 5, .enc 2, .dec 2, .destroy] : List Instr).all (fun i =>
      (after (exec i fresh)).isSome && (after (exec i allocated)).isSome && (after (exec i keyed)).isSome) = true := by
  decide +kernel

/-- A command that writes each of `NR`, `S` and BUF, and a sticky `FAULT`. -/
theorem witness_WhatCommandsNeverWrite :
    (after (exec (.init 1) fresh)).any (fun t => decide (t.nr ≠ fresh.nr ∧ t.sStore ≠ fresh.sStore)) = true ∧
    (after (exec (.key 20) allocated)).any (fun t => decide (t.sStore ≠ allocated.sStore)) = true ∧
    (after (exec .destroy keyed)).any (fun t => decide (t.nr ≠ keyed.nr ∧ t.sStore ≠ keyed.sStore)) = true ∧
    (after (exec (.dec 2) keyed)).any (fun t => decide (t.buf ≠ keyed.buf)) = true ∧
    (after (exec (.enc 2) { keyed with fault := true })).isSome = true := by decide +kernel

theorem witness_InitClaimsAContext :
    keyed.ctx ≠ .empty ∧ fresh.ctx = .empty ∧ fresh.params.roundsMax < 2 ∧ 1 ≤ fresh.params.roundsMax ∧
    0 ≤ fresh.params.roundsMax := by decide

theorem witness_StatusAfterInit :
    fresh.params.Legal ∧ fresh.ctx = .empty ∧ 1 ≤ fresh.params.roundsMax ∧ fresh.fault = false ∧ fresh.ovr = false := by
  decide

theorem witness_DestroyScrubsAndReleases : fresh.ctx = .empty ∧ allocated.ctx ≠ .empty ∧ keyed.ctx ≠ .empty := by decide

/-- A store's cells checked one by one. -/
theorem forall_mem_of_all {l : List (Option Word)} {p : Option Word → Bool} (h : l.all p = true) : ∀ x ∈ l, p x = true :=
  List.all_eq_true.1 h

theorem keyed_inv : keyed.Inv := by
  constructor
  case keyedDefined => exact fun _ => forall_mem_of_all (by decide +kernel)
  case restZero => exact fun x h => by simpa using forall_mem_of_all (p := (· == some 0)) (by decide +kernel) x h
  case emptyScrubbed => exact fun h => absurd h (by decide)
  case allocUndefined => exact fun h => absurd h (by decide)
  case lZero => exact fun x h => List.eq_of_mem_replicate (n := 5) h
  all_goals decide +kernel

/-- The invariant does not look at the pending moves. -/
theorem inv_about {s : State} (h : s.Inv) (m : HostMove) : (about s m).Inv :=
  ⟨h.paramsLegal, h.sSize, h.lSize, h.emptyScrubbed, h.roundsFit, h.allocUndefined, h.keyedDefined, h.restZero,
    h.transientsZero, h.lZero, h.idle, h.faultSet, h.keymemOk, h.bufOk⟩

theorem inv_keymem {s : State} (h : s.Inv) {m : Memory 8}
    (hm : Memory.wf m ∧ Memory.within m s.params.keyMaxBytes) : ({ s with keymem := m } : State).Inv :=
  ⟨h.paramsLegal, h.sSize, h.lSize, h.emptyScrubbed, h.roundsFit, h.allocUndefined, h.keyedDefined, h.restZero,
    h.transientsZero, h.lZero, h.idle, h.faultSet, hm, h.bufOk⟩

theorem witness_AfterDestroyOnlyInitRuns :
    keyed.Inv ∧ keyed.ctx ≠ .empty ∧ (∃ t, exec .destroy keyed = .next t) ∧ (∀ r, Instr.key 1 ≠ .init r) ∧
    1 ≤ keyed.params.roundsMax := by
  obtain ⟨t, h, -⟩ := exists_of_after (x := exec .destroy keyed) (p := fun _ => true) (by decide +kernel)
  exact ⟨keyed_inv, by decide, ⟨t, h⟩, fun r => by simp, by decide⟩

/-- The empty context, no bytes, one byte too many, and the longest key with every byte written. -/
theorem witness_KeyDerivesTheSchedule :
    fresh.ctx = .empty ∧ allocated.ctx ≠ .empty ∧ allocated.params.keyMaxBytes < 21 ∧
    20 ≤ allocated.params.keyMaxBytes ∧ ∀ a < 20, (Memory.read allocated.keymem a).isSome = true := by decide +kernel

/-- A key whose last word is partly filled, and its bytes as a function. -/
theorem witness_PaddedKeyIsLittleEndian :
    let k : Nat → Nat := fun a => if a < 5 then 0x41 + a else 0
    (∀ a, 5 ≤ a → k a = 0) ∧ (∀ a < 5, (Memory.read keyed.keymem a).map BitVec.toNat = some (k a)) ∧
    loadPaddedKey keyed.keymem 2 5 = some [0x44434241#32, 0x00000045#32] := by
  refine ⟨fun a h => if_neg (by omega), ?_⟩; decide +kernel

theorem witness_SeedsClosedForm : (0 < 2) ∧ (seedKeys 2)[0]? = some 0xB7E15163#32 ∧ 0 + 1 < 2 := by decide +kernel

theorem witness_MixingStep :
    let m : Mixing := { s := seedKeys 4, l := [0x44434241, 0x00000045], a := 0, b := 0 }
    m.s[7 % 4]? = some 0x9287BE8E#32 ∧ m.l[7 % 2]? = some 0x00000045#32 := by decide +kernel

theorem witness_MixingPassInOrder : 0 < 4 ∧ 0 < 2 ∧ ([0x44434241, 0x00000045] : List Word).length = 2 := by decide

/-- `ALLOC` against `KEYED`, with another key byte above `b`, another store and another `BBASE`. -/
theorem witness_ScheduleDependsOnRoundsAndKeyOnly :
    let s' : State := { keyed with keymem := (0, 0x01) :: keyed.keymem.tail, bbase := 1 }
    allocated.ctx ≠ .empty ∧ s'.ctx ≠ .empty ∧ 1 ≤ allocated.params.keyMaxBytes ∧ 1 ≤ s'.params.keyMaxBytes ∧
    allocated.nr = s'.nr ∧ allocated.sStore ≠ s'.sStore ∧
    ∀ a < 1, (Memory.read allocated.keymem a).isSome = true ∧
      Memory.read allocated.keymem a = Memory.read s'.keymem a := by decide +kernel

/-- K3 and K3b of section 2.3: five bytes, and the same five with a zero byte. -/
theorem witness_KeyIgnoresTrailingBytes :
    (5 + 3) / 4 = (6 + 3) / 4 ∧ Memory.read keyed.keymem 5 = some 0 ∧
    (after (exec (.key 5) keyed)).any (fun t => decide (t.res = .ok)) = true ∧
    (after (exec (.key 6) keyed)).any (fun t => decide (t.res = .ok)) = true ∧
    (after (exec (.key 5) { keyed with keymem := Memory.write keyed.keymem 5 0xFF#8 })).isSome = true := by
  decide +kernel

theorem witness_UnwrittenCellsAreRefused :
    keyed.ctx ≠ .empty ∧ 7 ≤ keyed.params.keyMaxBytes ∧ 6 < 7 ∧ Memory.read keyed.keymem 6 = none ∧
    keyedNoRounds.ctx = .keyed ∧ keyedNoRounds.roundKeys = some [0x4DBA7B7A#32, 0x1E1D1179#32] ∧
    keyedNoRounds.bbase.toNat + 2 ≤ keyedNoRounds.params.bufBlocks ∧ 3 < 2 * (keyedNoRounds.bbase.toNat + 2) ∧
    Memory.read keyedNoRounds.buf 3 = none := by decide +kernel

/-- The whole buffer, and one block more. -/
theorem witness_EncTransformsItsBlocks :
    fresh.ctx = .empty ∧ allocated.ctx = .alloc ∧ keyed.params.bufBlocks < keyed.bbase.toNat + 3 ∧
    keyed.ctx = .keyed ∧ keyed.roundKeys = some k3 ∧ keyed.bbase.toNat + 2 ≤ keyed.params.bufBlocks ∧
    (∀ j < 4, (Memory.read keyed.buf j).isSome = true) ∧ Memory.read keyed.buf 2 = some 0 ∧
    Memory.read keyed.buf 3 = some 0 := by decide +kernel

/-- A range that starts at the last block; the hypotheses are those of `EncTransformsItsBlocks`. -/
theorem witness_DecTransformsItsBlocks :
    let s : State := { keyed with bbase := 1 }
    s.ctx = .keyed ∧ s.roundKeys = some k3 ∧ s.bbase.toNat + 1 ≤ s.params.bufBlocks ∧
    s.params.bufBlocks < s.bbase.toNat + 2 ∧ ∀ j < 4, 2 ≤ j → (Memory.read s.buf j).isSome = true := by
  decide +kernel

theorem witness_EncBlockRounds :
    k3[0]? = some 0xCD8DF8F1#32 ∧ k3[1]? = some 0x02AA6A78#32 ∧ k3[2 * (0 + 1)]? = some 0x902EB59A#32 ∧
    k3[2 * (0 + 1) + 1]? = some 0x776BCD4A#32 := by decide

theorem witness_DecBlockRounds : k3[0]? = some 0xCD8DF8F1#32 ∧ k3[2 * (0 + 1) + 1]? = some 0x776BCD4A#32 := by decide

theorem witness_ZeroRoundsOnlyWhiten :
    keyedNoRounds.ctx = .keyed ∧ keyedNoRounds.nr = 0 ∧
    keyedNoRounds.roundKeys = some [0x4DBA7B7A#32, 0x1E1D1179#32] ∧
    keyedNoRounds.bbase.toNat + 1 ≤ keyedNoRounds.params.bufBlocks ∧
    (∀ j < 2, (Memory.read keyedNoRounds.buf j).isSome = true) ∧ Memory.read keyedNoRounds.buf 0 = some 0 ∧
    Memory.read keyedNoRounds.buf 1 = some 1 := by decide +kernel

/-- A function that undoes `EncBlock`: the premise of uniqueness, with no rounds and zero keys. -/
theorem witness_BlockRoundTrip : ∀ x : Block, (fun y : Block => y) (encBlock [0, 0] 0 x) = x := by
  intro x; simp [encBlock, encRounds, add32, wordAt]

theorem witness_BufferRoundTrip :
    keyed.ctx = .keyed ∧ keyed.roundKeys = some k3 ∧ keyed.bbase.toNat + 2 ≤ keyed.params.bufBlocks ∧
    Memory.wf keyed.buf ∧ ∀ j < 4, (Memory.read keyed.buf j).isSome = true := by decide +kernel

/-- `BBASE` at the end of the buffer, and one beyond it. -/
theorem witness_ZeroBlocksChangeNoWord :
    keyed.ctx = .keyed ∧ keyed.roundKeys = some k3 ∧ (2#16).toNat ≤ keyed.params.bufBlocks ∧
    keyed.params.bufBlocks < (3#16).toNat := by decide +kernel

theorem witness_BlocksAreIndependent :
    ∃ t, exec (.enc (1 + 1)) keyed = .next t ∧ t.res = .ok ∧ keyed.bbase.toNat + 1 < 65536 := by
  obtain ⟨t, h, p⟩ := exists_of_after (x := exec (.enc (1 + 1)) keyed) (p := fun t => decide (t.res = .ok))
    (by decide +kernel)
  exact ⟨t, h, of_decide_eq_true p, by decide⟩

/-- Two states that differ in the keys alone. -/
theorem witness_HostCannotReadKeyMaterial :
    let s : State := about keyed (.readReg .status)
    let s' : State := { s with sStore := [some 1, some 2, some 3, some 4], a := 5 }
    s.pending = .readReg .status :: [] ∧ s.hideSecrets = s'.hideSecrets ∧ s ≠ s' ∧
    (after (step s)).isSome = true := by decide +kernel

theorem witness_StepKeepsTheInvariant :
    (about keyed (.writeReg .cmd 0x50000000#32)).Inv ∧
    ∃ t, step (about keyed (.writeReg .cmd 0x50000000#32)) = .next t := by
  obtain ⟨t, h, -⟩ := exists_of_after (x := step (about keyed (.writeReg .cmd 0x50000000#32))) (p := fun _ => true)
    (by decide +kernel)
  exact ⟨inv_about keyed_inv _, ⟨t, h⟩⟩

/-- A keyed state with every cell of both memories written. -/
theorem witness_InvariantGivesEveryRoundKey :
    let s : State := { keyed with keymem := allocated.keymem }
    s.Inv ∧ s.ctx = .keyed ∧ (∀ a < s.params.keyMaxBytes, (Memory.read s.keymem a).isSome = true) ∧
    ∀ j < 2 * s.params.bufBlocks, (Memory.read s.buf j).isSome = true := by
  exact ⟨inv_keymem keyed_inv (by decide +kernel), by decide +kernel⟩

theorem witness_RotatorBits : 31 ≤ 31 ∧ 1 ≤ 31 ∧ 31 < 32 := by decide

theorem witness_AddSubXorWords : 31 < 32 := by decide
theorem witness_DatapathInversePairs : 0 ≤ 31 ∧ 31 ≤ 31 := by decide

end Sys2Proof.Tests
end

section
/-! The family "state": the host's access to the `CMD` and `BBASE` registers (rules R33, R35), the lifecycle table
(rule R38) and the state after reset (rule R40). -/

namespace Sys2Proof.Machine

/-! ### The host's moves on the registers -/

section Registers

variable {s : State} {w : Word} {rest : List HostMove}

theorem acceptCommand_of_error {e : Illegal} (h : decode w = .error e) :
    acceptCommand w s = .next (raiseFault .eIllcmd s) := by
  rcases acceptCommand_cases w s with ⟨-, hrun⟩ | ⟨i, hi, -⟩
  · exact hrun
  · rw [h] at hi; cases hi

theorem acceptCommand_of_ok {i : Instr} (h : decode w = .ok i) :
    acceptCommand w s = exec i { s with busy := true } := by
  rcases acceptCommand_cases w s with ⟨⟨e, he⟩, -⟩ | ⟨j, hj, hrun⟩
  · rw [h] at he; cases he
  · rw [h] at hj; cases hj; exact hrun

theorem step_writeCmd_idle (hp : s.pending = .writeReg .cmd w :: rest) (hb : s.busy = false) :
    step s = acceptCommand w { s with pending := rest } := by
  simp [step_cons hp, hostMove, hostWriteReg, hb]

theorem step_writeBbase_idle (hp : s.pending = .writeReg .bbase w :: rest) (hb : s.busy = false) :
    step s = .next { s with pending := rest, bbase := nField w } := by
  simp [step_cons hp, hostMove, hostWriteReg, hb, nField]

/-- While a command runs, both registers that a write can change drop the write (rules R33, R35). -/
theorem step_writeReg_busy {r : Reg} (hr : r ≠ .status) (hp : s.pending = .writeReg r w :: rest)
    (hb : s.busy = true) : step s = .next (dropWrite { s with pending := rest }) := by
  cases r with
  | cmd => simp [step_cons hp, hostMove, hostWriteReg, hb]
  | status => exact absurd rfl hr
  | bbase => simp [step_cons hp, hostMove, hostWriteReg, hb]

theorem step_readReg {r : Reg} (hp : s.pending = .readReg r :: rest) :
    step s = .next (answer (.reg r (readReg r s)) { s with pending := rest }) := by
  rw [step_cons hp]
  cases r <;> rfl

end Registers

theorem nField_eq_ofNat (w : Word) : nField w = BitVec.ofNat 16 (w.toNat % 2 ^ 16) :=
  BitVec.eq_of_toNat_eq (by rw [nField_toNat, BitVec.toNat_ofNat, Nat.mod_mod])

theorem readReg_bbase (s : State) : readReg .bbase s = BitVec.ofNat 32 s.bbase.toNat :=
  (BitVec.ofNat_toNat 32 s.bbase).symm

/-- No command writes `BBASE` (rule R35). -/
theorem exec_bbase {i : Instr} {s t : State} (h : exec i s = .next t) : t.bbase = s.bbase := by
  cases exec_ended h with
  | faulted => exact raiseFault_bbase ..
  | claimed => rw [complete_bbase, claimContext_bbase]
  | keyed => rw [complete_bbase, installKeys_bbase]
  | stored => rw [complete_bbase, storeBlocks_bbase]
  | destroyed => rw [complete_bbase, releaseContext_bbase, scrubKeys_bbase]

/-- Settles O8: each move on `CMD` is one of the register moves above, and a word written to an idle engine runs or
faults as it decodes. -/
theorem cmdRegister : Obligations.CmdRegister := by
  unfold Obligations.CmdRegister
  intro s w rest
  refine ⟨fun hp hb => ?_, fun hp hb => step_writeReg_busy (by decide) hp hb, fun hp => step_readReg hp⟩
  rw [step_writeCmd_idle hp hb]
  cases hd : decode w with
  | error e => exact acceptCommand_of_error hd
  | ok i => exact acceptCommand_of_ok hd

/-- Settles O9: the register moves on `BBASE`, with the stored and the returned word as numbers, and the inversion of
`exec` for the frame. -/
theorem bbaseRegister : Obligations.BbaseRegister := by
  unfold Obligations.BbaseRegister
  refine ⟨fun s w rest => ⟨fun hp hb => ?_, fun hp hb => ?_, fun hp => ?_⟩, fun _ _ _ => exec_bbase, rfl⟩
  · rw [step_writeBbase_idle hp hb, nField_eq_ofNat]
  · exact step_writeReg_busy (by decide) hp hb
  · rw [step_readReg hp, readReg_bbase]; rfl

/-! ### The rows of the lifecycle table -/

section Lifecycle

variable {s t : State}

theorem execInit_lifecycle {r : Nat} (hr : roundsFit r s) (h : execInit r s = .next t) :
    (t.res, t.ctx) = if s.ctx = .empty then (.ok, .alloc) else (.eState, s.ctx) := by
  rcases execInit_cases r s with ⟨hc, e⟩ | ⟨-, hn, -⟩ | ⟨hc, -, e⟩
  · rw [e] at h; cases h; simp [hc]
  · exact absurd hr hn
  · rw [e] at h; cases h; simp [hc]

theorem execKey_lifecycle {b : Nat} (hb : b ≠ 0) (hf : keyFits b s) (h : execKey b s = .next t) :
    (t.res, t.ctx) = if s.ctx = .empty then (.eState, .empty) else (.ok, .keyed) := by
  rcases execKey_cases b s with
    ⟨hc, e⟩ | ⟨-, h0, -⟩ | ⟨-, -, hn, -⟩ | ⟨-, -, -, -, e⟩ | ⟨hc, -, -, l, -, e⟩
  · rw [e] at h; cases h; simp [hc]
  · exact absurd h0 hb
  · exact absurd hf hn
  · rw [e] at h; cases h
  · rw [e] at h; cases h; simp [hc]

theorem runCipher_lifecycle {f : List Word → Nat → Block → Block} {n : Nat} (hf : blocksFit n s)
    (h : runCipher f n s = .next t) :
    (t.res, t.ctx) =
      if s.ctx = .empty then (.eState, .empty) else if s.ctx = .alloc then (.eNokey, .alloc) else (.ok, .keyed) := by
  rcases runCipher_cases f n s with
    ⟨hc, e⟩ | ⟨hc, e⟩ | ⟨-, hn, -⟩ | ⟨-, -, -, e⟩ | ⟨-, -, -, e⟩ | ⟨hc, -, ks, m, -, -, e⟩
  · rw [e] at h; cases h; simp [hc]
  · rw [e] at h; cases h; simp [hc]
  · exact absurd hf hn
  · rw [e] at h; cases h
  · rw [e] at h; cases h
  · rw [e] at h; cases h; simp [hc]

theorem execDestroy_lifecycle (h : execDestroy s = .next t) :
    (t.res, t.ctx) = if s.ctx = .empty then (.eState, .empty) else (.ok, .empty) := by
  rcases execDestroy_cases s with ⟨hc, e⟩ | ⟨hc, e⟩
  · rw [e] at h; cases h; simp [hc]
  · rw [e] at h; cases h; simp [hc]

end Lifecycle

/-- Settles O21: one row of the table per command, then its three cells. -/
theorem lifecycleTable : Obligations.LifecycleTable := by
  unfold Obligations.LifecycleTable
  intro i s t hop h
  cases i with
  | init r =>
    rw [execInit_lifecycle hop h]
    cases s.ctx <;> rfl
  | key b =>
    obtain ⟨hb, hf⟩ := hop
    rw [execKey_lifecycle (Nat.ne_of_gt hb) hf h]
    cases s.ctx <;> rfl
  | enc n =>
    rw [runCipher_lifecycle (f := encBlock) hop h]
    cases s.ctx <;> rfl
  | dec n =>
    rw [runCipher_lifecycle (f := decBlock) hop h]
    cases s.ctx <;> rfl
  | destroy =>
    rw [execDestroy_lifecycle h]
    cases s.ctx <;> rfl

/-! ### Reset -/

/-- Without a context the round-key array has no words (rule R39 (a)). -/
theorem roundKeys_of_empty {s : State} (hc : s.ctx = .empty) : s.roundKeys = some [] := if_pos hc

/-- Settles O15: the register and store values are the fields of `State.resetWith`; there is no context, so there are
no live words, and neither memory lists a cell. -/
theorem resetValues : Obligations.ResetValues := by
  unfold Obligations.ResetValues
  exact ⟨rfl, rfl, rfl, roundKeys_of_empty rfl, rfl, rfl, rfl, rfl, rfl, rfl, rfl, rfl, rfl, rfl,
    Memory.read_nil, Memory.read_nil⟩

end Sys2Proof.Machine
end

section
/-! The family "memory": the host's moves on KEYMEM and BUF between commands (rules R75, R76), and the refusal of a
command that would read a cell nothing has written (rules R66, R67). -/

namespace Sys2Proof.Machine

/-! ### The host's moves on the memories -/

section HostMoves

variable {s : State} {rest : List HostMove}

theorem step_writeKey {a : Nat} {v : Byte} (hp : s.pending = .writeKey a v :: rest) (hb : s.busy = false)
    (ha : a < s.params.keyMaxBytes) :
    step s = .next { s with pending := rest, keymem := Memory.write s.keymem a v } :=
  (step_cons hp).trans (onKeyByte_ok hb ha)

theorem step_readKey {a : Nat} (hp : s.pending = .readKey a :: rest) (hb : s.busy = false)
    (ha : a < s.params.keyMaxBytes) :
    step s = .next { s with pending := rest, listing := s.listing ++ [.key a (Memory.read s.keymem a)] } :=
  (step_cons hp).trans (onKeyByte_ok hb ha)

theorem step_writeBuf {j : Nat} {v : Word} (hp : s.pending = .writeBuf j v :: rest) (hb : s.busy = false)
    (hj : j < s.params.bufWords) :
    step s = .next { s with pending := rest, buf := Memory.write s.buf j v } :=
  (step_cons hp).trans (onBufWord_ok hb hj)

theorem step_readBuf {j : Nat} (hp : s.pending = .readBuf j :: rest) (hb : s.busy = false)
    (hj : j < s.params.bufWords) :
    step s = .next { s with pending := rest, listing := s.listing ++ [.buf j (Memory.read s.buf j)] } :=
  (step_cons hp).trans (onBufWord_ok hb hj)

end HostMoves

/-- Settles O11: the moves on a KEYMEM byte that exists, with the laws of a memory for what the write can be seen to
do. -/
theorem hostMovesOnKeymem : Obligations.HostMovesOnKeymem := by
  unfold Obligations.HostMovesOnKeymem
  intro s a v rest hb ha
  refine ⟨fun hp => ⟨Memory.write s.keymem a v, step_writeKey hp hb ha, Memory.read_write_same .., ?_⟩,
    fun x hp hx => ?_⟩
  · exact fun j hj => Memory.read_write_other _ v hj.symm
  · rw [step_readKey hp hb ha, hx]

/-- Settles O12: the moves on a BUF word that exists, with the laws of a memory for what the write can be seen to
do. -/
theorem hostMovesOnBuf : Obligations.HostMovesOnBuf := by
  unfold Obligations.HostMovesOnBuf
  intro s j v rest hb hj
  refine ⟨fun hp => ⟨Memory.write s.buf j v, step_writeBuf hp hb hj, Memory.read_write_same .., ?_⟩,
    fun x hp hx => ?_⟩
  · exact fun k hk => Memory.read_write_other _ v hk.symm
  · rw [step_readBuf hp hb hj, hx]

/-! ### Unwritten cells -/

/-- One unwritten key byte, and the padded key does not load (rule R66). -/
theorem loadPaddedKey_eq_none {m : Memory 8} {c b a : Nat} (ha : a < b) (hm : Memory.read m a = none) :
    loadPaddedKey m c b = none := by
  cases hl : loadPaddedKey m c b with
  | none => rfl
  | some l =>
    have hsome := loadPaddedKey_isSome_iff.1 ⟨l, hl⟩ a ha
    rw [hm] at hsome
    cases hsome

/-- Every word of BUF is one of the two words of block `j / 2` (rule R62). -/
theorem eq_word0_or_word1 (j : Nat) : j = word0 (j / 2) ∨ j = word1 (j / 2) := by
  simp only [word0, word1]; omega

/-- One unwritten word, and its block cannot be read (rule R67). -/
theorem readBlock_eq_none {m : Memory 32} {j : Nat} (hm : Memory.read m j = none) : readBlock m (j / 2) = none := by
  cases hx : readBlock m (j / 2) with
  | none => rfl
  | some x =>
    obtain ⟨h0, h1⟩ := readBlock_eq_some.1 hx
    rcases eq_word0_or_word1 j with hj | hj
    · rw [← hj, hm] at h0; cases h0
    · rw [← hj, hm] at h1; cases h1

/-- One unwritten word in the block range, and the range is not transformed (rule R67). -/
theorem transformBlocks_eq_none {f : Block → Block} {q n j : Nat} {m : Memory 32} (hlo : word0 q ≤ j)
    (hhi : j < word0 (q + n)) (hm : Memory.read m j = none) : transformBlocks f q n m = none := by
  cases ht : transformBlocks f q n m with
  | none => rfl
  | some m' =>
    simp only [word0] at hlo hhi
    obtain ⟨i, hi, hk⟩ : ∃ i < n, q + i = j / 2 := ⟨j / 2 - q, by omega, by omega⟩
    obtain ⟨x, hx, -⟩ := readBlock_transformBlocks ht hi
    rw [hk, readBlock_eq_none hm] at hx
    cases hx

theorem runCipher_unwrittenWord {f : List Word → Nat → Block → Block} {n j : Nat} {s : State} {ks : List Word}
    (hc : s.ctx = .keyed) (hk : s.roundKeys = some ks) (hf : blocksFit n s) (hlo : word0 s.base ≤ j)
    (hhi : j < word0 (s.base + n)) (hm : Memory.read s.buf j = none) :
    runCipher f n s = .refused .unwrittenBufWord :=
  runCipher_unwritten hc hf hk (transformBlocks_eq_none hlo hhi hm)

/-- Settles O34: KEY does not load its padded key and the ciphers do not transform their range, which after the checks
is the named refusal; after reset neither memory lists a cell. -/
theorem unwrittenCellsAreRefused : Obligations.UnwrittenCellsAreRefused := by
  unfold Obligations.UnwrittenCellsAreRefused
  refine ⟨fun b a s hc hf ha hm => ?_, fun n j s ks i hi hc hk hf hlo hhi hm => ?_, Memory.read_nil, Memory.read_nil⟩
  · exact execKey_unwritten hc (Nat.ne_zero_of_lt ha) hf (loadPaddedKey_eq_none ha hm)
  · rcases hi with rfl | rfl
    · exact runCipher_unwrittenWord (f := encBlock) hc hk hf hlo hhi hm
    · exact runCipher_unwrittenWord (f := decBlock) hc hk hf hlo hhi hm

end Sys2Proof.Machine
end

section
/-! The family "encoding": the decoder's answers as conditions on the three fields of the word, the round trip of
decoder and encoder (rule R100), and the illegal words (rules R96, R202). -/

namespace Sys2Proof

section Decoder

variable {w : Word} {i : Instr}

/-! ### The legal words -/

/-- A word decodes to the command whose operation code and operand stand in `OP` and `N`, provided `ZERO` is clear. -/
theorem decode_eq_ok_iff :
    decode w = .ok i ↔ zeroField w = 0#12 ∧ (opField w).toNat = i.opcode ∧ (nField w).toNat = i.operand := by
  constructor
  · intro h
    unfold decode at h
    split at h
    · cases h
    next hz =>
      have hz : zeroField w = 0#12 := not_not.1 hz
      split at h
      case h_1 hop | h_2 hop | h_3 hop | h_4 hop => cases h; exact ⟨hz, hop, rfl⟩
      case h_5 hop =>
        split at h
        next hn => cases h; exact ⟨hz, hop, congrArg BitVec.toNat hn⟩
        · cases h
      case h_6 => cases h
  · rintro ⟨hz, hop, hn⟩
    rw [decode, if_neg (not_not.2 hz), hop]
    cases i with
    | init r | key b | enc n | dec n => exact hn ▸ rfl
    | destroy => exact if_pos (BitVec.eq_of_toNat_eq hn)

/-- What rule R96 leaves legal: a clear `ZERO` under the code of INIT, KEY, ENC or DEC, or of DESTROY with no
operand. -/
theorem exists_decode_eq_ok_iff :
    (∃ i, decode w = .ok i) ↔
      zeroField w = 0#12 ∧ (1 ≤ (opField w).toNat ∧ (opField w).toNat ≤ 4 ∨ (opField w).toNat = 5 ∧ nField w = 0#16) := by
  constructor
  · rintro ⟨i, h⟩
    obtain ⟨hz, hop, hn⟩ := decode_eq_ok_iff.1 h
    refine ⟨hz, ?_⟩
    cases i with
    | init | key | enc | dec => left; simp [hop, Instr.opcode]
    | destroy => exact .inr ⟨hop, BitVec.eq_of_toNat_eq hn⟩
  · rintro ⟨hz, ⟨hlo, hhi⟩ | ⟨hop, hn⟩⟩
    · obtain hop | hop | hop | hop :
          (opField w).toNat = 1 ∨ (opField w).toNat = 2 ∨ (opField w).toNat = 3 ∨ (opField w).toNat = 4 := by omega
      · exact ⟨.init _, decode_eq_ok_iff.2 ⟨hz, hop, rfl⟩⟩
      · exact ⟨.key _, decode_eq_ok_iff.2 ⟨hz, hop, rfl⟩⟩
      · exact ⟨.enc _, decode_eq_ok_iff.2 ⟨hz, hop, rfl⟩⟩
      · exact ⟨.dec _, decode_eq_ok_iff.2 ⟨hz, hop, rfl⟩⟩
    · exact ⟨.destroy, decode_eq_ok_iff.2 ⟨hz, hop, congrArg BitVec.toNat hn⟩⟩

/-! ### Decoding and encoding -/

theorem fields_encode (h : i.WellFormed) :
    (opField (encode i)).toNat = i.opcode ∧ (zeroField (encode i)).toNat = 0 ∧
      (nField (encode i)).toNat = i.operand := by
  cases i with
  | init r => exact Laws.EncodedFields.init r h
  | key b => exact Laws.EncodedFields.key b h
  | enc n => exact Laws.EncodedFields.enc n h
  | dec n => exact Laws.EncodedFields.dec n h
  | destroy => exact Laws.EncodedFields.destroy h

theorem decode_encode (h : i.WellFormed) : decode (encode i) = .ok i := by
  obtain ⟨hop, hz, hn⟩ := fields_encode h
  exact decode_eq_ok_iff.2 ⟨BitVec.eq_of_toNat_eq hz, hop, hn⟩

/-- The decoder's operands fit because `N` is 16 bits wide (rule R94). -/
theorem wellFormed_of_decode (h : decode w = .ok i) : i.WellFormed := by
  obtain ⟨-, -, hn⟩ := decode_eq_ok_iff.1 h
  have hfit : i.operand ≤ 65535 := hn ▸ Nat.le_of_lt_succ (nField w).isLt
  cases i with
  | init | key | enc | dec => exact hfit
  | destroy => trivial

/-- The three fields cover the word (rule R92). -/
theorem toNat_eq_fields (w : Word) :
    w.toNat = (opField w).toNat * 2 ^ 28 + (zeroField w).toNat * 2 ^ 16 + (nField w).toNat := by
  rw [opField_toNat, zeroField_toNat, nField_toNat]
  omega

theorem encode_decode (h : decode w = .ok i) : encode i = w := by
  obtain ⟨hz, hop, hn⟩ := decode_eq_ok_iff.1 h
  apply BitVec.eq_of_toNat_eq
  rw [encode_toNat (wellFormed_of_decode h), toNat_eq_fields w, hz, hop, hn]
  simp

/-! ### The illegal words -/

theorem exists_decode_eq_error_iff : (∃ e, decode w = .error e) ↔ ¬ ∃ i, decode w = .ok i := by
  cases decode w with
  | error e => simp
  | ok i => simp

end Decoder

/-- Settles O1: the encoded word has the command's fields, which the decoder reads back; and the fields that a decoded
word must have are the whole word. -/
theorem decodeEncodeRoundTrip : Obligations.DecodeEncodeRoundTrip := by
  unfold Obligations.DecodeEncodeRoundTrip
  exact ⟨fun _ h => ⟨encode_toNat h, decode_encode h⟩, fun _ _ h => ⟨wellFormed_of_decode h, encode_decode h⟩⟩

/-- Settles O4: the illegal words are those that are not legal, with the fields as numbers; the write to `CMD` of a word
that does not decode is the fault `E_ILLCMD`, which looks at nothing of the state but `BUSY`. -/
theorem illegalWordsFaultInEveryState : Obligations.IllegalWordsFaultInEveryState := by
  unfold Obligations.IllegalWordsFaultInEveryState
  intro w
  constructor
  · rw [exists_decode_eq_error_iff, exists_decode_eq_ok_iff, zeroField_eq_zero_iff, nField_eq_zero_iff, opField_toNat]
    omega
  · rintro ⟨e, he⟩ s rest hb hp
    exact (Machine.step_writeCmd_idle hp hb).trans (Machine.acceptCommand_of_error he)

end Sys2Proof
end

section
/-! The family "datapath": the laws of the adder, the subtractor and the XOR mixer (rules R121 to R123), the amounts
(rules R124, R128), the rotators as permutations of the bits and as arithmetic (rules R125, R126), and the inverse pairs
(rule R129). -/

namespace Sys2Proof.Machine

section Datapath

variable {x y z : Word} {i k n : Nat}

/-! ### The adder, the subtractor and the XOR mixer -/

theorem toNat_add32 (x y : Word) : (add32 x y).toNat = (x.toNat + y.toNat) % 2 ^ 32 := BitVec.toNat_add x y

theorem add32_comm (x y : Word) : add32 x y = add32 y x := BitVec.add_comm x y

theorem add32_assoc (x y z : Word) : add32 (add32 x y) z = add32 x (add32 y z) := BitVec.add_assoc x y z

theorem toNat_sub32 (x y : Word) : (sub32 x y).toNat = (x.toNat + (2 ^ 32 - y.toNat)) % 2 ^ 32 :=
  BitVec.toNat_sub' x y

theorem add32_eq_iff : add32 z y = x ↔ z = sub32 x y := BitVec.eq_sub_iff_add_eq.symm

@[simp] theorem sub32_add32 (x y : Word) : sub32 (add32 x y) y = x := BitVec.add_sub_cancel x y

@[simp] theorem add32_sub32 (x y : Word) : add32 (sub32 x y) y = x := BitVec.sub_add_cancel x y

/-- Subtraction in two's complement: a XOR with ones is the complement, and one more is the negative. -/
theorem sub32_eq_add32_complement (x y : Word) : sub32 x y = add32 x (add32 (xor32 y 0xFFFFFFFF#32) 1#32) :=
  calc x - y = x + -y := BitVec.sub_eq_add_neg x y
    _ = x + (~~~y + 1#32) := by rw [BitVec.neg_eq_not_add]
    _ = x + ((y ^^^ BitVec.allOnes 32) + 1#32) := by rw [BitVec.xor_allOnes]

theorem getLsbD_xor32 (x y : Word) (i : Nat) : (xor32 x y).getLsbD i = (x.getLsbD i ^^ y.getLsbD i) :=
  BitVec.getLsbD_xor

@[simp] theorem xor32_xor32 (x y : Word) : xor32 (xor32 x y) y = x := by
  rw [xor32, xor32, BitVec.xor_assoc, BitVec.xor_self, BitVec.xor_zero]

/-! ### The rotation amount -/

theorem amt5_eq_mod (x : Word) : amt5 x = x.toNat % 32 := BitVec.extractLsb'_toNat 0 5 x

/-- 32 divides `2^32`, so the carry out of the adder does not reach the amount (rule R128). -/
theorem amt5_add32 (x y : Word) : amt5 (add32 x y) = (x.toNat + y.toNat) % 32 := by
  rw [amt5_eq_mod, toNat_add32]
  exact Nat.mod_mod_of_dvd _ (by decide)

/-! ### The rotators on bits -/

theorem getLsbD_rotl32 (x : Word) (hn : n ≤ 31) (hi : i < 32) :
    (rotl32 x n).getLsbD ((i + n) % 32) = x.getLsbD i := by
  rw [rotl32, BitVec.getLsbD_rotateLeft_of_le (by omega)]
  by_cases h : i + n < 32
  · have hj : (i + n) % 32 = i + n := Nat.mod_eq_of_lt h
    simp [hj, h]
  · have hj : (i + n) % 32 = i + n - 32 := by omega
    have hlt : i + n - 32 < n := by omega
    have hback : 32 - n + (i + n - 32) = i := by omega
    simp [hj, hlt, hback]

theorem getLsbD_rotr32 (x : Word) (hn : n ≤ 31) (hi : i < 32) :
    (rotr32 x n).getLsbD i = x.getLsbD ((i + n) % 32) := by
  rw [rotr32, BitVec.getLsbD_rotateRight_of_lt (by omega)]
  by_cases h : i < 32 - n
  · have hj : (i + n) % 32 = n + i := by omega
    simp [hj, h]
  · have hj : (i + n) % 32 = i - (32 - n) := by omega
    simp [hj, h, hi]

/-- The positions `(i + n) mod 32` are all positions of a word, so the bits at them determine it. -/
theorem eq_of_rotated_bits_eq (n : Nat) (h : ∀ i < 32, x.getLsbD ((i + n) % 32) = y.getLsbD ((i + n) % 32)) :
    x = y := by
  refine BitVec.eq_of_getLsbD_eq fun j hj => ?_
  have hpos : ((j + (32 - n % 32)) % 32 + n) % 32 = j := by omega
  simpa only [hpos] using h ((j + (32 - n % 32)) % 32) (Nat.mod_lt _ (by decide))

@[simp] theorem rotr32_rotl32 (x : Word) (hn : n ≤ 31) : rotr32 (rotl32 x n) n = x :=
  BitVec.eq_of_getLsbD_eq fun _ hi => (getLsbD_rotr32 _ hn hi).trans (getLsbD_rotl32 x hn hi)

@[simp] theorem rotl32_rotr32 (x : Word) (hn : n ≤ 31) : rotl32 (rotr32 x n) n = x :=
  eq_of_rotated_bits_eq n fun _ hi => (getLsbD_rotl32 _ hn hi).trans (getLsbD_rotr32 x hn hi)

/-- Rotating right by `n` is rotating left by what is missing to a full turn (rule R126): the bit taken from
`(i + n) mod 32` comes back to `i`. -/
theorem rotr32_eq_rotl32 (x : Word) (hn : n ≤ 31) : rotr32 x n = rotl32 x ((32 - n) % 32) := by
  refine BitVec.eq_of_getLsbD_eq fun i hi => ?_
  have hback : ((i + n) % 32 + (32 - n) % 32) % 32 = i := by omega
  have hbit := getLsbD_rotl32 x (n := (32 - n) % 32) (by omega) (Nat.mod_lt (i + n) (by decide))
  rw [hback] at hbit
  rw [getLsbD_rotr32 x hn hi, hbit]

@[simp] theorem rotl32_zero (x : Word) : rotl32 x 0 = x :=
  eq_of_rotated_bits_eq 0 fun i hi => by
    rw [getLsbD_rotl32 x (by decide) hi, Nat.add_zero, Nat.mod_eq_of_lt hi]

@[simp] theorem rotr32_zero (x : Word) : rotr32 x 0 = x := by
  rw [rotr32_eq_rotl32 x (by decide)]
  exact rotl32_zero x

/-! ### The rotators as arithmetic -/

/-- Of `a * 2^k` a word keeps the low `32 - k` bits of `a`. -/
theorem mul_two_pow_mod_word (a : Nat) (hk : k ≤ 32) : a * 2 ^ k % 2 ^ 32 = a % 2 ^ (32 - k) * 2 ^ k := by
  have hpow : 2 ^ 32 = 2 ^ (32 - k) * 2 ^ k := by rw [← Nat.pow_add, Nat.sub_add_cancel hk]
  rw [hpow, Nat.mul_mod_mul_right]

/-- The two shifted parts of a rotated word share no bit, so their disjunction is their sum. -/
theorem toNat_rotl32 (x : Word) (hn : n ≤ 31) :
    (rotl32 x n).toNat = x.toNat * 2 ^ n % 2 ^ 32 + x.toNat / 2 ^ (32 - n) := by
  have hk : n ≤ 32 := by omega
  have hlow : x.toNat / 2 ^ (32 - n) < 2 ^ n := by
    rw [Nat.div_lt_iff_lt_mul (Nat.two_pow_pos _), ← Nat.pow_add, Nat.add_sub_cancel' hk]
    exact x.isLt
  rw [rotl32, BitVec.toNat_rotateLeft, Nat.mod_eq_of_lt (by omega : n < 32), Nat.shiftLeft_eq,
    Nat.shiftRight_eq_div_pow, mul_two_pow_mod_word _ hk, ← Nat.shiftLeft_eq, Nat.shiftLeft_add_eq_or_of_lt hlow]

theorem toNat_rotr32 (x : Word) (h1 : 1 ≤ n) (hn : n ≤ 31) :
    (rotr32 x n).toNat = x.toNat / 2 ^ n + x.toNat % 2 ^ n * 2 ^ (32 - n) := by
  have hturn : 32 - (32 - n) = n := by omega
  rw [rotr32_eq_rotl32 x hn, Nat.mod_eq_of_lt (by omega), toNat_rotl32 x (by omega),
    mul_two_pow_mod_word _ (Nat.sub_le 32 n), hturn, Nat.add_comm]

end Datapath

/-- Settles O48: the model's three operations are those of the bit vectors of 32 bits, with their laws. -/
theorem addSubXorWords : Obligations.AddSubXorWords := by
  unfold Obligations.AddSubXorWords
  exact fun x y z => ⟨toNat_add32 x y, add32_comm x y, add32_assoc x y z, toNat_sub32 x y, add32_eq_iff,
    sub32_eq_add32_complement x y, fun i _ => getLsbD_xor32 x y i⟩

/-- Settles O49: the bits by the position of each on its side of the wrap; the no-op and ROTR as ROTL from the bits; the
arithmetic from the disjoint parts. -/
theorem rotatorBits : Obligations.RotatorBits := by
  unfold Obligations.RotatorBits
  exact fun x n hn => ⟨fun _ hi => getLsbD_rotl32 x hn hi, fun _ hi => getLsbD_rotr32 x hn hi,
    fun _ => toNat_rotl32 x hn, fun h1 => toNat_rotr32 x h1 hn, rotl32_zero x, rotr32_zero x, rotr32_eq_rotl32 x hn⟩

/-- Settles O50: the amount is the word modulo 32, and a sum may be reduced before or after. -/
theorem rotationAmounts : Obligations.RotationAmounts := by
  unfold Obligations.RotationAmounts
  refine fun x y => ⟨amt5_eq_mod x, amt5_add32 x y, ?_⟩
  rw [amt5_add32, amt5_eq_mod, amt5_eq_mod, ← Nat.add_mod]

/-- Settles O51: subtraction undoes addition, XOR is its own inverse, and each rotator takes every bit back to the
position from which the other moved it. -/
theorem datapathInversePairs : Obligations.DatapathInversePairs := by
  unfold Obligations.DatapathInversePairs
  exact fun x y n hn => ⟨sub32_add32 x y, add32_sub32 x y, rotr32_rotl32 x hn, rotl32_rotr32 x hn, xor32_xor32 x y⟩

end Sys2Proof.Machine
end

section
/-! The family "init": what INIT writes (rule R141) and the value of `STATUS` after it (rule R143). -/

namespace Sys2Proof.Machine

theorem undefineKeys_eq (n : Nat) (cells : List (Option Word)) :
    undefineKeys n cells = List.replicate n none ++ cells.drop n := by
  rw [undefineKeys, overwrite, List.length_replicate]

/-- Settles O23: the word is the encoder's; each of the three cases of INIT is one fault or the completion. -/
theorem initClaimsAContext : Obligations.InitClaimsAContext := by
  unfold Obligations.InitClaimsAContext
  refine fun r s => ⟨encode_init_toNat, fun hc => execInit_live hc,
    fun hc hr => execInit_tooMany hc (Nat.not_le_of_gt hr), fun hc hr => ?_⟩
  rw [exec_init, execInit_claims hc hr, complete, claimContext, undefineKeys_eq, keyCount]

/-! ### The value of `STATUS` -/

/-- Concatenation puts the left word above the right one. -/
theorem toNat_append_eq_add {m n : Nat} (x : BitVec m) (y : BitVec n) :
    (x ++ y).toNat = x.toNat * 2 ^ n + y.toNat := by
  rw [BitVec.toNat_append, ← Nat.shiftLeft_add_eq_or_of_lt y.isLt, Nat.shiftLeft_eq]

/-- The value of `STATUS`, each field at the weight of its lowest bit (rule R34). -/
theorem toNat_statusWord (s : State) :
    (statusWord s).toNat = s.ovr.toNat * 2 ^ 16 + s.nr.toNat * 2 ^ 8 + (resCode s.res).toNat * 2 ^ 4 +
      s.fault.toNat * 2 ^ 3 + (ctxCode s.ctx).toNat * 2 + s.busy.toNat := by
  simp only [statusWord, toNat_append_eq_add, BitVec.toNat_ofBool, BitVec.toNat_ofNat]
  omega

/-- A legal round count fits the 8 bits of `NR` (rules R6, R22). -/
theorem claimContext_nr_toNat {r : Nat} {s : State} (hp : s.params.Legal) (hr : roundsFit r s) :
    (claimContext r s).nr.toNat = r := by
  obtain ⟨hmax, -, -⟩ := hp
  have hlt : r < 2 ^ 8 := Nat.lt_succ_of_le (Nat.le_trans hr hmax)
  rw [claimContext_nr, BitVec.toNat_ofNat, Nat.mod_eq_of_lt hlt]

/-- Settles O24: the state is that of the completed claim; in `STATUS` only `NR` and the code of `ALLOC` are left. -/
theorem statusAfterInit : Obligations.StatusAfterInit := by
  unfold Obligations.StatusAfterInit
  intro r s hp hc hr
  have hnr : (complete (claimContext r s)).nr.toNat = r := claimContext_nr_toNat hp hr
  refine ⟨_, execInit_claims hc hr, rfl, rfl, rfl, hnr, rfl, rfl, fun hf ho => ?_⟩
  rw [toNat_statusWord, hnr]
  simp [hf, ho, resCode, ctxCode]

end Sys2Proof.Machine
end

section
/-! The family "key_schedule": the padded key (rule R153), the seeds (rule R154), one mixing step (rule R156), and what
the derived round keys depend on (rules R158, R159). -/

namespace Sys2Proof.Machine

/-! ### One mixing step -/

theorem wordAt_of_getElem? {ws : List Word} {i : Nat} {x : Word} (h : ws[i]? = some x) : wordAt ws i = x := by
  rw [wordAt, List.getD_eq_getElem?_getD, h, Option.getD_some]

/-- Settles O30: the two words read are the given ones, and the rotation amount is the sum modulo 32. -/
theorem mixingStep : Obligations.MixingStep := by
  unfold Obligations.MixingStep
  intro t c i m x y hx hy
  rw [mixStep, wordAt_of_getElem? hx, wordAt_of_getElem? hy, amt5_eq_mod]
  rfl

/-! ### The seeds -/

/-- One more increment, taken first or taken last. -/
theorem add_add_ofNat_mul (x q : Word) (i : Nat) :
    x + q + BitVec.ofNat 32 i * q = x + BitVec.ofNat 32 (i + 1) * q := by
  rw [BitVec.ofNat_add, add_mul, BitVec.one_mul, add_comm (_ * q) q, add_assoc]

/-- Word `i` of the seed chain from `x`. -/
theorem getElem?_seedChain (x : Word) {n i : Nat} (hi : i < n) :
    (seedChain x n)[i]? = some (x + BitVec.ofNat 32 i * seedQ) := by
  induction n generalizing x i with
  | zero => omega
  | succ n ih =>
    cases i with
    | zero => simp [seedChain]
    | succ i =>
      rw [seedChain, List.getElem?_cons_succ, ih _ (by omega), add32, add_add_ofNat_mul]

/-- The closed form of rule R154. -/
theorem getElem?_seedKeys {t i : Nat} (hi : i < t) : (seedKeys t)[i]? = some (seedP + BitVec.ofNat 32 i * seedQ) :=
  getElem?_seedChain seedP hi

/-- The recurrence of rule R154. -/
theorem getElem?_seedKeys_succ {t i : Nat} {x : Word} (hx : (seedKeys t)[i]? = some x) (hi : i + 1 < t) :
    (seedKeys t)[i + 1]? = some (x + seedQ) := by
  rw [getElem?_seedKeys (Nat.lt_of_succ_lt hi)] at hx
  cases hx
  rw [getElem?_seedKeys hi, ← add_add_ofNat_mul, add_right_comm]

/-- Settles O29: the closed form by induction along the chain; the recurrence follows from it. -/
theorem seedsClosedForm : Obligations.SeedsClosedForm := by
  unfold Obligations.SeedsClosedForm
  refine fun t => ⟨length_seedKeys t, fun ht => ?_, fun i x hx hi => getElem?_seedKeys_succ hx hi,
    fun i hi => getElem?_seedKeys hi⟩
  rw [getElem?_seedKeys ht]
  rfl

/-! ### The padded key -/

/-- The four bytes `k (4 j) .. k (4 j + 3)` as a little-endian word (rule R64). -/
def littleEndianWord (k : Nat → Nat) (j : Nat) : Word :=
  BitVec.ofNat 32 (k (4 * j) + k (4 * j + 1) * 2 ^ 8 + k (4 * j + 2) * 2 ^ 16 + k (4 * j + 3) * 2 ^ 24)

/-- Word `j` depends on its own four bytes alone. -/
theorem littleEndianWord_congr {k k' : Nat → Nat} {j : Nat} (h : ∀ a, a / 4 = j → k a = k' a) :
    littleEndianWord k j = littleEndianWord k' j := by
  rw [littleEndianWord, littleEndianWord, h (4 * j) (by omega), h (4 * j + 1) (by omega), h (4 * j + 2) (by omega),
    h (4 * j + 3) (by omega)]

/-- The first `b` bytes of `k`, the others zero. -/
def firstBytes (k : Nat → Nat) (b a : Nat) : Nat := if a < b then k a else 0

theorem firstBytes_of_absent {k : Nat → Nat} {b : Nat} (h : ∀ a, b ≤ a → k a = 0) : firstBytes k b = k := by
  funext a
  rw [firstBytes]
  split
  · rfl
  · exact (h a (by omega)).symm

theorem littleEndianWord_firstBytes_zero (k : Nat → Nat) : littleEndianWord (firstBytes k 0) = fun _ => 0 := by
  funext j
  simp [littleEndianWord, firstBytes]

/-- A byte in its lane, as a number. -/
theorem setWidth_shiftLeft_eq_ofNat (v : Byte) (n : Nat) :
    v.setWidth 32 <<< n = BitVec.ofNat 32 (v.toNat * 2 ^ n) := by
  apply BitVec.eq_of_toNat_eq
  simp [Nat.shiftLeft_eq]

/-- One more byte adds it in its lane of its own word. -/
theorem littleEndianWord_firstBytes_succ_same (k : Nat → Nat) (b : Nat) :
    littleEndianWord (firstBytes k (b + 1)) (b / 4) =
      littleEndianWord (firstBytes k b) (b / 4) + BitVec.ofNat 32 (k b * 2 ^ (8 * (b % 4))) := by
  obtain ⟨j, r, hr, rfl⟩ : ∃ j r, r < 4 ∧ b = 4 * j + r := ⟨b / 4, b % 4, by omega, by omega⟩
  have hdiv : (4 * j + r) / 4 = j := by omega
  have hmod : (4 * j + r) % 4 = r := by omega
  rw [hdiv, hmod, littleEndianWord, littleEndianWord, ← BitVec.ofNat_add]
  congr 1
  interval_cases r <;> simp [firstBytes]

/-- One more byte leaves every other word alone. -/
theorem littleEndianWord_firstBytes_succ_other (k : Nat → Nat) {b j : Nat} (h : b / 4 ≠ j) :
    littleEndianWord (firstBytes k (b + 1)) j = littleEndianWord (firstBytes k b) j := by
  refine littleEndianWord_congr fun a ha => ?_
  have hiff : a < b + 1 ↔ a < b := by omega
  simp only [firstBytes, hiff]

/-- Adding key byte `b` to the words of the first `b` bytes gives those of the first `b + 1`. -/
theorem addKeyByte_littleEndianWord (k : Nat → Nat) {b c : Nat} {v : Byte} (hv : k b = v.toNat) :
    addKeyByte b v ((List.range c).map (littleEndianWord (firstBytes k b))) =
      (List.range c).map (littleEndianWord (firstBytes k (b + 1))) := by
  refine List.ext_getElem (by simp) fun j _ _ => ?_
  simp only [addKeyByte, List.getElem_modify, List.getElem_map, List.getElem_range]
  split
  case isTrue h =>
    subst h
    rw [littleEndianWord_firstBytes_succ_same, setWidth_shiftLeft_eq_ofNat, hv, add32]
  case isFalse h => rw [littleEndianWord_firstBytes_succ_other k h]

/-- The padded key that loads is the little-endian words of its bytes. -/
theorem loadPaddedKey_eq_words {m : Memory 8} {c b : Nat} {l : List Word} {k : Nat → Nat}
    (hk : ∀ a v, a < b → Memory.read m a = some v → k a = v.toNat) (h : loadPaddedKey m c b = some l) :
    l = (List.range c).map (littleEndianWord (firstBytes k b)) := by
  induction b generalizing l with
  | zero =>
    rw [loadPaddedKey_zero] at h
    cases h
    rw [littleEndianWord_firstBytes_zero, List.map_const', List.length_range]
  | succ b ih =>
    obtain ⟨l', v, hl', hv, rfl⟩ := loadPaddedKey_succ.1 h
    rw [ih (fun a v ha => hk a v (by omega)) hl', addKeyByte_littleEndianWord k (hk b v (by omega) hv)]

/-- Settles O28: by induction on the number of bytes the loaded words are the little-endian ones. -/
theorem paddedKeyIsLittleEndian : Obligations.PaddedKeyIsLittleEndian := by
  unfold Obligations.PaddedKeyIsLittleEndian
  refine fun m b => ⟨loadPaddedKey_isSome_iff, fun l k habsent hk hl => ⟨length_loadPaddedKey hl, fun j hj => ?_⟩⟩
  rw [loadPaddedKey_eq_words hk hl, firstBytes_of_absent habsent, List.getElem?_map, List.getElem?_range hj]
  rfl

/-- Adding a zero byte changes no word. -/
theorem addKeyByte_zero (a : Nat) (l : List Word) : addKeyByte a 0 l = l := by
  simp [addKeyByte, add32, ← Function.id_def, List.modify_id]

/-- Zero bytes at the end of a key do not change the words that loaded (rule R159). -/
theorem loadPaddedKey_of_zeros {m : Memory 8} {c b b' : Nat} {l : List Word} (hb : b ≤ b')
    (hz : ∀ a, b ≤ a → a < b' → Memory.read m a = some 0) (h : loadPaddedKey m c b = some l) :
    loadPaddedKey m c b' = some l := by
  induction b', hb using Nat.le_induction with
  | base => exact h
  | succ b' hb ih =>
    exact loadPaddedKey_succ.2 ⟨l, 0, ih fun a ha hlt => hz a ha (by omega), hz b' hb (by omega),
      (addKeyByte_zero b' l).symm⟩

/-! ### What the round keys depend on -/

/-- The checks of KEY pass (rule R152). -/
def keyAccepted (b : Nat) (s : State) : Prop := s.ctx ≠ .empty ∧ b ≠ 0 ∧ keyFits b s

/-- The checks of KEY read neither memory. -/
theorem keyAccepted_withKeymem (b : Nat) (s : State) (m : Memory 8) :
    keyAccepted b { s with keymem := m } ↔ keyAccepted b s := Iff.rfl

/-- The inversion lemma of KEY: it answers the schedule of the loaded key, or a check failed and only the status
changed. -/
theorem execKey_next {b : Nat} {s t : State} (h : execKey b s = .next t) :
    (keyAccepted b s ∧ ∃ l, loadPaddedKey s.keymem (paddedCount b) b = some l ∧
      t = complete (installKeys (paddedCount b) (mixedKey s.t (paddedCount b) l).s s)) ∨
    (¬ keyAccepted b s ∧ ∃ code, code ≠ .ok ∧ t = raiseFault code s) := by
  rcases execKey_cases b s with ⟨hc, e⟩ | ⟨-, hb, e⟩ | ⟨-, -, hf, e⟩ | ⟨-, -, -, -, e⟩ | ⟨hc, hb, hf, l, hl, e⟩ <;>
    rw [e] at h <;> cases h
  · exact .inr ⟨fun ⟨hlive, _, _⟩ => hlive hc, _, by decide, rfl⟩
  · exact .inr ⟨fun ⟨_, hpos, _⟩ => hpos hb, _, by decide, rfl⟩
  · exact .inr ⟨fun ⟨_, _, hfits⟩ => hf hfits, _, by decide, rfl⟩
  · exact .inl ⟨⟨hc, hb, hf⟩, l, hl, rfl⟩

/-- KEY that ends with `RES = OK` has installed the schedule of the key it loaded. -/
theorem execKey_ok {b : Nat} {s t : State} (h : execKey b s = .next t) (hok : t.res = .ok) :
    ∃ l, loadPaddedKey s.keymem (paddedCount b) b = some l ∧
      t = complete (installKeys (paddedCount b) (mixedKey s.t (paddedCount b) l).s s) := by
  rcases execKey_next h with ⟨-, hl⟩ | ⟨-, code, hcode, rfl⟩
  · exact hl
  · exact absurd hok hcode

/-- The round keys of the completed KEY are the words it installs. -/
theorem roundKeys_installKeys {c : Nat} {ks : List Word} {s : State} (h : ks.length = s.t) :
    (complete (installKeys c ks s)).roundKeys = some ks := by
  simp [State.roundKeys, ← h]

/-- Settles O32: both states load the same padded key and mix it into the same number of seeds. -/
theorem scheduleDependsOnRoundsAndKeyOnly : Obligations.ScheduleDependsOnRoundsAndKeyOnly := by
  unfold Obligations.ScheduleDependsOnRoundsAndKeyOnly
  intro b s s' hc hc' hb hf hf' hnr hkey
  obtain ⟨l, hl⟩ := loadPaddedKey_isSome_iff (c := paddedCount b).2 fun a ha => (hkey a ha).1
  have hl' : loadPaddedKey s'.keymem (paddedCount b) b = some l :=
    (loadPaddedKey_congr fun a ha => (hkey a ha).2).symm.trans hl
  have ht : s.t = s'.t := by rw [State.t, State.t, hnr]
  refine ⟨_, _, (mixedKey s.t (paddedCount b) l).s, execKey_installs hc (by omega) hf hl,
    execKey_installs hc' (by omega) hf' hl', roundKeys_installKeys (length_mixedKey_s _ _ _), ?_,
    length_mixedKey_s _ _ _⟩
  rw [ht]
  exact roundKeys_installKeys (length_mixedKey_s _ _ _)

/-- KEY writes neither memory nor `NR` (rule R159). -/
theorem execKey_frame {b : Nat} {s t : State} (h : execKey b s = .next t) :
    t.keymem = s.keymem ∧ t.buf = s.buf ∧ t.nr = s.nr := by
  rcases execKey_next h with ⟨-, l, -, rfl⟩ | ⟨-, code, -, rfl⟩
  · exact ⟨rfl, rfl, rfl⟩
  · exact ⟨rfl, rfl, rfl⟩

/-- A key byte at or above `b` has no influence on the store (rule R159). -/
theorem execKey_sStore_writeAbove {b a : Nat} {v : Byte} {s t t' : State} (ha : b ≤ a) (h : execKey b s = .next t)
    (h' : execKey b { s with keymem := Memory.write s.keymem a v } = .next t') : t'.sStore = t.sStore := by
  have hload : loadPaddedKey (Memory.write s.keymem a v) (paddedCount b) b =
      loadPaddedKey s.keymem (paddedCount b) b :=
    loadPaddedKey_congr fun j hj => Memory.read_write_other _ v (by omega)
  rcases execKey_next h with ⟨hacc, l, hl, rfl⟩ | ⟨hacc, code, -, rfl⟩ <;>
    rcases execKey_next h' with ⟨hacc', l', hl', rfl⟩ | ⟨hacc', code', -, rfl⟩
  · obtain rfl : l' = l := Option.some.inj (hl'.symm.trans (hload.trans hl))
    rfl
  · exact absurd ((keyAccepted_withKeymem ..).2 hacc) hacc'
  · exact absurd ((keyAccepted_withKeymem ..).1 hacc') hacc
  · rfl

/-- Zero bytes added within the last word do not change the store (rule R159). -/
theorem execKey_sStore_of_zeros {b b' : Nat} {s t t' : State} (hb : b ≤ b') (hc : paddedCount b = paddedCount b')
    (hz : ∀ a, b ≤ a → a < b' → Memory.read s.keymem a = some 0) (h : execKey b s = .next t) (hok : t.res = .ok)
    (h' : execKey b' s = .next t') (hok' : t'.res = .ok) : t'.sStore = t.sStore := by
  obtain ⟨l, hl, rfl⟩ := execKey_ok h hok
  obtain ⟨l', hl', rfl⟩ := execKey_ok h' hok'
  rw [← hc] at hl' ⊢
  obtain rfl : l' = l := Option.some.inj (hl'.symm.trans (loadPaddedKey_of_zeros hb hz hl))
  rfl

/-- Settles O33: KEY's frame; the padded key does not see a byte at or above `b`, nor a zero byte. -/
theorem keyIgnoresTrailingBytes : Obligations.KeyIgnoresTrailingBytes := by
  unfold Obligations.KeyIgnoresTrailingBytes
  exact ⟨fun _ _ _ h => execKey_frame h, fun _ _ _ _ _ _ ha h h' => execKey_sStore_writeAbove ha h h',
    fun _ _ _ _ _ _ hb hc hz h hok h' hok' => execKey_sStore_of_zeros hb hc hz h hok h' hok'⟩

end Sys2Proof.Machine
end

section
/-! The family "encrypt": what ENC and DEC do to a written block range (rules R171, R175, R181), the block encryptor
round by round (rule R172), and a context without rounds (rules R174, R185). -/

namespace Sys2Proof.Machine

/-! ### The block range of a cipher command -/

section Range

variable {f : List Word → Nat → Block → Block} {g : Block → Block} {q n h : Nat} {m m' : Memory 32} {s : State}
  {ks : List Word} {x0 x1 : Word}

/-- Every word of the range `2q .. 2(q + n) - 1` holds a value, so the range is transformed (rule R67). -/
theorem exists_transformBlocks_of_written
    (hw : ∀ j, word0 q ≤ j → j < word0 (q + n) → (Memory.read m j).isSome = true) :
    ∃ m', transformBlocks g q n m = some m' :=
  transformBlocks_isSome_iff.2 fun i hi => readBlock_isSome.2
    ⟨hw _ (by simp only [word0]; omega) (by simp only [word0]; omega),
      hw _ (by simp only [word0, word1]; omega) (by simp only [word0, word1]; omega)⟩

/-- The two words of a block in the range, after the transformation. -/
theorem read_transformBlocks_inside (ht : transformBlocks g q n m = some m') (hh : h < n)
    (h0 : Memory.read m (word0 (q + h)) = some x0) (h1 : Memory.read m (word1 (q + h)) = some x1) :
    Memory.read m' (word0 (q + h)) = some (g { d0 := x0, d1 := x1 }).d0 ∧
    Memory.read m' (word1 (q + h)) = some (g { d0 := x0, d1 := x1 }).d1 := by
  obtain ⟨x, hx, hx'⟩ := readBlock_transformBlocks ht hh
  obtain rfl : x = { d0 := x0, d1 := x1 } := Option.some.inj (hx.symm.trans (readBlock_eq_some.2 ⟨h0, h1⟩))
  exact readBlock_eq_some.1 hx'

/-- A cipher command in a keyed context completes on a range of written words that lies in BUF. -/
theorem runCipher_of_written (hc : s.ctx = .keyed) (hk : s.roundKeys = some ks) (hf : blocksFit n s)
    (hw : ∀ j, word0 s.base ≤ j → j < word0 (s.base + n) → (Memory.read s.buf j).isSome = true) :
    ∃ m, transformBlocks (f ks s.nr.toNat) s.base n s.buf = some m ∧
      runCipher f n s = .next (complete (storeBlocks m s)) := by
  obtain ⟨m, hm⟩ := exists_transformBlocks_of_written hw
  exact ⟨m, hm, runCipher_stores hc hf hk hm⟩

/-- What the completed cipher command leaves in one block of its range. -/
theorem runCipher_block (hc : s.ctx = .keyed) (hk : s.roundKeys = some ks) (hf : blocksFit n s)
    (hw : ∀ j, word0 s.base ≤ j → j < word0 (s.base + n) → (Memory.read s.buf j).isSome = true) (hh : h < n)
    (h0 : Memory.read s.buf (word0 (s.base + h)) = some x0) (h1 : Memory.read s.buf (word1 (s.base + h)) = some x1) :
    ∃ t, runCipher f n s = .next t ∧
      Memory.read t.buf (word0 (s.base + h)) = some (f ks s.nr.toNat { d0 := x0, d1 := x1 }).d0 ∧
      Memory.read t.buf (word1 (s.base + h)) = some (f ks s.nr.toNat { d0 := x0, d1 := x1 }).d1 := by
  obtain ⟨m, hm, hrun⟩ := runCipher_of_written hc hk hf hw
  exact ⟨_, hrun, read_transformBlocks_inside hm hh h0 h1⟩

/-- A cipher command of no blocks reads and writes no word of BUF; its range check is on `BBASE` alone (rule R175). -/
theorem runCipher_noBlocks (f : List Word → Nat → Block → Block) (hc : s.ctx = .keyed) :
    (∀ ks, s.roundKeys = some ks → s.base ≤ s.params.bufBlocks →
      runCipher f 0 s = .next (complete (storeBlocks s.buf s))) ∧
    (s.params.bufBlocks < s.base → runCipher f 0 s = .next (raiseFault .eBounds s)) :=
  ⟨fun _ hk hf => runCipher_stores hc hf hk (transformBlocks_zero ..),
    fun hf => runCipher_outside hc (Nat.not_le_of_gt hf)⟩

end Range

/-- Settles O35: the checks of the cipher commands in their order, and then the transformed range. -/
theorem encTransformsItsBlocks : Obligations.EncTransformsItsBlocks := by
  unfold Obligations.EncTransformsItsBlocks
  intro n s
  refine ⟨encode_enc_toNat, fun hc => runCipher_empty hc, fun hc => runCipher_alloc hc,
    fun hc hf => runCipher_outside hc (Nat.not_le_of_gt hf), fun ks hc hk hf hw => ?_⟩
  obtain ⟨m, hm, hrun⟩ := runCipher_of_written hc hk hf hw
  exact ⟨m, hrun, fun h x0 x1 hh h0 h1 => read_transformBlocks_inside hm hh h0 h1,
    fun j hj => read_transformBlocks_outside hm hj⟩

/-- Settles O42: ENC and DEC have the common shape of a cipher command, here of no blocks. -/
theorem zeroBlocksChangeNoWord : Obligations.ZeroBlocksChangeNoWord := by
  unfold Obligations.ZeroBlocksChangeNoWord
  intro s i hi hc
  rcases hi with rfl | rfl
  · exact runCipher_noBlocks encBlock hc
  · exact runCipher_noBlocks decBlock hc

/-! ### The block encryptor and the two whitening words -/

section Block

variable {ks : List Word} {x : Block} {k0 k1 : Word}

/-- Pre-whitening is all of `EncBlock` without rounds (rule R174). -/
theorem encBlock_zero (h0 : ks[0]? = some k0) (h1 : ks[1]? = some k1) :
    encBlock ks 0 x = { d0 := x.d0 + k0, d1 := x.d1 + k1 } := by
  rw [encBlock, wordAt_of_getElem? h0, wordAt_of_getElem? h1]
  rfl

/-- Taking the whitening off is all of `DecBlock` without rounds (rule R185). -/
theorem decBlock_zero (h0 : ks[0]? = some k0) (h1 : ks[1]? = some k1) :
    decBlock ks 0 x = { d0 := x.d0 - k0, d1 := x.d1 - k1 } := by
  rw [decBlock, wordAt_of_getElem? h0, wordAt_of_getElem? h1]
  rfl

theorem encBlock_succ (ks : List Word) (k : Nat) (x : Block) :
    encBlock ks (k + 1) x = encRound ks (k + 1) (encBlock ks k x) := rfl

end Block

/-- Settles O37: a further round is applied last, to the two given words, and its amounts are remainders modulo 32. -/
theorem encBlockRounds : Obligations.EncBlockRounds := by
  unfold Obligations.EncBlockRounds
  intro ks x
  refine ⟨fun k0 k1 h0 h1 => encBlock_zero h0 h1, fun k lo hi hlo hhi => ?_⟩
  rw [encBlock_succ, encRound, wordAt_of_getElem? hlo, wordAt_of_getElem? hhi, amt5_eq_mod, amt5_eq_mod]
  rfl

/-- Settles O39: each command leaves its block function of the block, which with no rounds is the whitening. -/
theorem zeroRoundsOnlyWhiten : Obligations.ZeroRoundsOnlyWhiten := by
  unfold Obligations.ZeroRoundsOnlyWhiten
  intro n h s k0 k1 x0 x1 hc hnr hk hf hw hh h0 h1
  have hr : s.nr.toNat = 0 := congrArg BitVec.toNat hnr
  have henc := runCipher_block (f := encBlock) hc hk hf hw hh h0 h1
  have hdec := runCipher_block (f := decBlock) hc hk hf hw hh h0 h1
  rw [hr, encBlock_zero rfl rfl] at henc
  rw [hr, decBlock_zero rfl rfl] at hdec
  exact ⟨henc, hdec⟩

end Sys2Proof.Machine
end

section
/-! The family "decrypt": DEC on a written block range (rule R181), and the block decryptor round by round
(rule R182). -/

namespace Sys2Proof.Machine

/-- Settles O36: DEC has the checks and the block range of a cipher command, with `DecBlock` as its block function. -/
theorem decTransformsItsBlocks : Obligations.DecTransformsItsBlocks := by
  unfold Obligations.DecTransformsItsBlocks
  intro n s
  refine ⟨encode_dec_toNat, fun hc => runCipher_empty hc, fun hc => runCipher_alloc hc,
    fun hc hf => runCipher_outside hc (Nat.not_le_of_gt hf), fun ks hc hk hf hw => ?_⟩
  obtain ⟨m, hm, hrun⟩ := runCipher_of_written hc hk hf hw
  exact ⟨m, hrun, fun h x0 x1 hh h0 h1 => read_transformBlocks_inside hm hh h0 h1,
    fun j hj => read_transformBlocks_outside hm hj⟩

/-- The last round is undone first; the rounds below it are those of the shorter decryption. -/
theorem decBlock_succ (ks : List Word) (k : Nat) (x : Block) :
    decBlock ks (k + 1) x = decBlock ks k (decRound ks (k + 1) x) := rfl

/-- Settles O38: the round undone first uses the two given words, and its amounts are remainders modulo 32. -/
theorem decBlockRounds : Obligations.DecBlockRounds := by
  unfold Obligations.DecBlockRounds
  intro ks x
  refine ⟨fun k0 k1 h0 h1 => decBlock_zero h0 h1, fun k lo hi hlo hhi => ?_⟩
  rw [decBlock_succ, decRound, wordAt_of_getElem? hlo, wordAt_of_getElem? hhi, amt5_eq_mod, amt5_eq_mod]
  rfl

end Sys2Proof.Machine
end

section
/-! The family "destroy": DESTROY's word, its fault, the scrub of the live words and the release (rule R191). -/

namespace Sys2Proof.Machine

/-- Writing `n` copies of one value leaves the cells from `n` on. -/
theorem overwrite_replicate {α : Type} (n : Nat) (x : α) (cells : List α) :
    overwrite (List.replicate n x) cells = List.replicate n x ++ cells.drop n := by
  rw [overwrite, List.length_replicate]

/-- DESTROY has no operand: its word is its opcode alone (rules R95, R191). -/
theorem encode_destroy : encode .destroy = 0x50000000#32 := rfl

/-- The scrub is of the `2 NR + 2` live words and writes nothing else (rule R191). -/
theorem scrubKeys_eq (s : State) :
    scrubKeys s =
      { s with
        sStore := List.replicate (2 * s.nr.toNat + 2) (some 0) ++ s.sStore.drop (2 * s.nr.toNat + 2) } := by
  rw [scrubKeys, overwrite_replicate, State.t, keyCount]

/-- Settles O25: one fault in `EMPTY`; in a live context the scrub, then the release and the completion. -/
theorem destroyScrubsAndReleases : Obligations.DestroyScrubsAndReleases := by
  unfold Obligations.DestroyScrubsAndReleases
  refine fun s => ⟨encode_destroy, fun hc => execDestroy_empty hc, fun hc => ?_⟩
  rw [exec_destroy, execDestroy_live hc, scrubKeys_eq, releaseContext, complete]

end Sys2Proof.Machine
end

section
/-! The family "exceptions": how a command that faults ends (rules R207, R210), the sticky bits (rule R212), and the
commands after a fault (rule R214). -/

namespace Sys2Proof.Machine

/-! ### How a command ends -/

/-- The two ways to end, as far as the status shows them: a completion, which leaves the sticky bits alone, or a fault
and nothing more (rules R90, R210). -/
def CompletedOrFaulted (s t : State) : Prop :=
  (t.res = .ok ∧ t.fault = s.fault ∧ t.ovr = s.ovr) ∨ ∃ code, code ≠ .ok ∧ t = raiseFault code s

section Ending

variable {i : Instr} {w : Word} {s t : State}

theorem CompletedOrFaulted.eq_raiseFault (h : CompletedOrFaulted s t) (hres : t.res ≠ .ok) :
    t = raiseFault t.res s := by
  rcases h with ⟨hok, -⟩ | ⟨code, -, rfl⟩
  · exact absurd hok hres
  · rfl

theorem exec_completedOrFaulted (h : exec i s = .next t) : CompletedOrFaulted s t := by
  cases exec_ended h with
  | faulted code hcode => exact .inr ⟨code, hcode, rfl⟩
  | claimed | keyed | stored | destroyed => exact .inl ⟨rfl, rfl, rfl⟩

/-- No command looks at `RES` or `BUSY`: neither stands in a check, and every end writes both. -/
theorem exec_withResBusy (i : Instr) (s : State) (c : Result) (b : Bool) :
    exec i { s with res := c, busy := b } = exec i s := by
  cases i with
  | init | key | enc | dec | destroy => rfl

/-- The `BUSY` that the acceptance sets is seen by no command (rule R90). -/
theorem acceptCommand_eq_exec (h : decode w = .ok i) : acceptCommand w s = exec i s :=
  (acceptCommand_of_ok h).trans (exec_withResBusy i s s.res true)

theorem acceptCommand_completedOrFaulted (h : acceptCommand w s = .next t) : CompletedOrFaulted s t := by
  cases hd : decode w with
  | error e =>
    rw [acceptCommand_of_error hd] at h
    cases h
    exact .inr ⟨_, by decide, rfl⟩
  | ok i => exact exec_completedOrFaulted ((acceptCommand_eq_exec hd).symm.trans h)

end Ending

/-- Settles O18: a command that did not complete has taken a fault, which writes the three status fields alone. -/
theorem faultChangesOnlyTheStatus : Obligations.FaultChangesOnlyTheStatus := by
  unfold Obligations.FaultChangesOnlyTheStatus
  exact ⟨fun _ _ _ h => (exec_completedOrFaulted h).eq_raiseFault,
    fun _ _ _ h => (acceptCommand_completedOrFaulted h).eq_raiseFault⟩

/-- The checks of ENC and DEC in their order (rule R207). -/
theorem runCipher_firstFailingCheck (f : List Word → Nat → Block → Block) (n : Nat) (s : State) :
    (s.ctx = .empty → runCipher f n s = .next (raiseFault .eState s)) ∧
    (s.ctx = .alloc → runCipher f n s = .next (raiseFault .eNokey s)) ∧
    (s.ctx = .keyed → s.params.bufBlocks < s.base + n → runCipher f n s = .next (raiseFault .eBounds s)) :=
  ⟨runCipher_empty, runCipher_alloc, fun hc hf => runCipher_outside hc (Nat.not_le_of_gt hf)⟩

/-- Settles O17: each check that fails first is one guard of the command's meaning. -/
theorem firstFailingCheckIsReported : Obligations.FirstFailingCheckIsReported := by
  unfold Obligations.FirstFailingCheckIsReported
  refine fun s => ⟨fun w ⟨e, he⟩ => acceptCommand_of_error he, fun r => ⟨fun hc => execInit_live hc, fun hc hr => ?_⟩,
    fun b => ⟨fun hc => execKey_empty hc, fun hc hb => ?_, fun hc hb hf => ?_⟩, fun n i hi => ?_,
    fun hc => execDestroy_empty hc⟩
  · exact execInit_tooMany hc (Nat.not_le_of_gt hr)
  · exact hb ▸ execKey_noBytes hc
  · exact execKey_tooLong hc hb (Nat.not_le_of_gt hf)
  · rcases hi with rfl | rfl
    · exact runCipher_firstFailingCheck encBlock n s
    · exact runCipher_firstFailingCheck decBlock n s

/-! ### The sticky bits -/

/-- `FAULT` and `OVR`, once set, are set in the later state as well (rule R212). -/
def KeepsSticky (s t : State) : Prop := (s.fault = true → t.fault = true) ∧ (s.ovr = true → t.ovr = true)

section Sticky

variable {s t : State}

theorem keepsSticky_of_eq (hf : t.fault = s.fault) (ho : t.ovr = s.ovr) : KeepsSticky s t :=
  ⟨fun h => hf.trans h, fun h => ho.trans h⟩

theorem keepsSticky_raiseFault (code : Result) (s : State) : KeepsSticky s (raiseFault code s) := ⟨fun _ => rfl, id⟩

theorem keepsSticky_dropWrite (s : State) : KeepsSticky s (dropWrite s) := ⟨fun _ => rfl, fun _ => rfl⟩

theorem acceptCommand_keepsSticky {w : Word} (h : acceptCommand w s = .next t) : KeepsSticky s t := by
  rcases acceptCommand_completedOrFaulted h with ⟨-, hf, ho⟩ | ⟨code, -, rfl⟩
  · exact keepsSticky_of_eq hf ho
  · exact keepsSticky_raiseFault code s

theorem hostWriteReg_keepsSticky {r : Reg} {w : Word} (h : hostWriteReg r w s = .next t) : KeepsSticky s t := by
  unfold hostWriteReg at h
  cases r with
  | cmd =>
    dsimp only at h
    split at h
    · cases h; exact keepsSticky_dropWrite s
    · exact acceptCommand_keepsSticky h
  | status => cases h; exact keepsSticky_of_eq rfl rfl
  | bbase =>
    dsimp only at h
    split at h
    · cases h; exact keepsSticky_dropWrite s
    · cases h; exact keepsSticky_of_eq rfl rfl

/-- Of the host's moves only reset clears a sticky bit. -/
theorem hostMove_keepsSticky {m : HostMove} (hm : m ≠ .reset) (h : hostMove m s = .next t) : KeepsSticky s t := by
  cases m with
  | writeReg r w => exact hostWriteReg_keepsSticky h
  | readReg r => cases h; exact keepsSticky_of_eq rfl rfl
  | writeKey | readKey => obtain ⟨rfl, -⟩ := onKeyByte_next h; exact keepsSticky_of_eq rfl rfl
  | writeBuf | readBuf => obtain ⟨rfl, -⟩ := onBufWord_next h; exact keepsSticky_of_eq rfl rfl
  | reset => exact absurd rfl hm

theorem step_keepsSticky (h : step s = .next t) (hp : ∀ rest, s.pending ≠ .reset :: rest) : KeepsSticky s t := by
  cases hs : s.pending with
  | nil =>
    rw [step_nil hs] at h
    cases h
    exact keepsSticky_of_eq rfl rfl
  | cons m rest =>
    rw [step_cons hs] at h
    have hmove : KeepsSticky { s with pending := rest } t := hostMove_keepsSticky (fun hm => hp rest (hm ▸ hs)) h
    exact hmove

theorem step_reset {rest : List HostMove} (hp : s.pending = .reset :: rest) :
    step s = .next (hostReset { s with pending := rest }) := step_cons hp

end Sticky

/-- Settles O19: the sticky bits through each host move; what a command answers does not look at `RES`, and its end
either completes or takes a fault. -/
theorem stickyBitsLastUntilReset : Obligations.StickyBitsLastUntilReset := by
  unfold Obligations.StickyBitsLastUntilReset
  refine ⟨fun _ _ => step_keepsSticky, fun s t rest h hp => ?_, fun i s c => exec_withResBusy i s c s.busy,
    fun i s t h => ?_⟩
  · rw [step_reset hp] at h
    cases h
    exact ⟨rfl, rfl⟩
  · rcases exec_completedOrFaulted h with ⟨hok, -⟩ | ⟨code, hcode, rfl⟩
    · exact .inl hok
    · exact .inr ⟨hcode, rfl⟩

/-! ### After a fault -/

section AfterFault

variable {s u : State} {w : Word} {i : Instr}

theorem runCipher_ne_fault (f : List Word → Nat → Block → Block) (n : Nat) (s : State) (x : Fault) :
    runCipher f n s ≠ .fault x := by
  rcases runCipher_cases f n s with
    ⟨-, e⟩ | ⟨-, e⟩ | ⟨-, -, e⟩ | ⟨-, -, -, e⟩ | ⟨-, -, -, e⟩ | ⟨-, -, ks, m, -, -, e⟩ <;>
    rw [e] <;> nofun

/-- A command answers a next state or a refusal, never a machine fault (rule R214). -/
theorem exec_ne_fault (i : Instr) (s : State) (x : Fault) : exec i s ≠ .fault x := by
  cases i with
  | init r => rcases execInit_cases r s with ⟨-, e⟩ | ⟨-, -, e⟩ | ⟨-, -, e⟩ <;> rw [exec_init, e] <;> nofun
  | key b =>
    rcases execKey_cases b s with ⟨-, e⟩ | ⟨-, -, e⟩ | ⟨-, -, -, e⟩ | ⟨-, -, -, -, e⟩ | ⟨-, -, -, l, -, e⟩ <;>
      rw [exec_key, e] <;> nofun
  | enc n => exact runCipher_ne_fault encBlock n s x
  | dec n => exact runCipher_ne_fault decBlock n s x
  | destroy => rcases execDestroy_cases s with ⟨-, e⟩ | ⟨-, e⟩ <;> rw [exec_destroy, e] <;> nofun

theorem acceptCommand_ne_fault (w : Word) (s : State) (x : Fault) : acceptCommand w s ≠ .fault x := by
  cases hd : decode w with
  | error e => rw [acceptCommand_of_error hd]; nofun
  | ok i => rw [acceptCommand_eq_exec hd]; exact exec_ne_fault i s x

/-- The checks and the effect of ENC and DEC look at no status field, so a fault before them leaves its `FAULT` and no
other trace. -/
theorem runCipher_raiseFault {f : List Word → Nat → Block → Block} {n : Nat} (code : Result)
    (h : runCipher f n s = .next u) : runCipher f n (raiseFault code s) = .next { u with fault := true } := by
  rcases runCipher_cases f n s with
    ⟨hc, e⟩ | ⟨hc, e⟩ | ⟨hc, hf, e⟩ | ⟨-, -, -, e⟩ | ⟨-, -, -, e⟩ | ⟨hc, hf, ks, m, hk, hm, e⟩ <;>
    rw [e] at h <;> cases h
  · exact runCipher_empty hc
  · exact runCipher_alloc hc
  · exact runCipher_outside hc hf
  · exact runCipher_stores hc hf hk hm

/-- After a fault every command runs as it would have, up to the sticky `FAULT`: the same guards hold. -/
theorem exec_raiseFault (code : Result) (h : exec i s = .next u) :
    exec i (raiseFault code s) = .next { u with fault := true } := by
  cases i with
  | init r =>
    rw [exec_init] at h
    rcases execInit_cases r s with ⟨hc, e⟩ | ⟨hc, hr, e⟩ | ⟨hc, hr, e⟩ <;> rw [e] at h <;> cases h
    · exact execInit_live hc
    · exact execInit_tooMany hc hr
    · exact execInit_claims hc hr
  | key b =>
    rw [exec_key] at h
    rcases execKey_cases b s with
      ⟨hc, e⟩ | ⟨hc, rfl, e⟩ | ⟨hc, hb, hf, e⟩ | ⟨-, -, -, -, e⟩ | ⟨hc, hb, hf, l, hl, e⟩ <;>
      rw [e] at h <;> cases h
    · exact execKey_empty hc
    · exact execKey_noBytes hc
    · exact execKey_tooLong hc hb hf
    · exact execKey_installs hc hb hf hl
  | enc n => exact runCipher_raiseFault code h
  | dec n => exact runCipher_raiseFault code h
  | destroy =>
    rw [exec_destroy] at h
    rcases execDestroy_cases s with ⟨hc, e⟩ | ⟨hc, e⟩ <;> rw [e] at h <;> cases h
    · exact execDestroy_empty hc
    · exact execDestroy_live hc

/-- The same for a command word, which decodes alike in every state. -/
theorem acceptCommand_raiseFault (code : Result) (h : acceptCommand w s = .next u) :
    acceptCommand w (raiseFault code s) = .next { u with fault := true } := by
  cases hd : decode w with
  | error e =>
    rw [acceptCommand_of_error hd] at h ⊢
    cases h
    rfl
  | ok i =>
    rw [acceptCommand_eq_exec hd] at h ⊢
    exact exec_raiseFault code h

end AfterFault

/-- Settles O20: a fault leaves `s` but for its status, and there every command and word runs as it would have; so does
the faulting one, whose own state has `FAULT` set already. -/
theorem engineWorksAfterAFault : Obligations.EngineWorksAfterAFault := by
  unfold Obligations.EngineWorksAfterAFault
  refine ⟨exec_ne_fault, acceptCommand_ne_fault, fun i s t h hres => ?_, fun w s t h hres => ?_⟩
  · obtain ⟨code, rfl⟩ : ∃ code, t = raiseFault code s := ⟨_, (exec_completedOrFaulted h).eq_raiseFault hres⟩
    exact ⟨exec_raiseFault code h, fun _ _ => exec_raiseFault code⟩
  · obtain ⟨code, rfl⟩ : ∃ code, t = raiseFault code s :=
      ⟨_, (acceptCommand_completedOrFaulted h).eq_raiseFault hres⟩
    exact ⟨acceptCommand_raiseFault code h, fun _ _ => exec_raiseFault code, fun _ _ => acceptCommand_raiseFault code⟩

end Sys2Proof.Machine
end

section
/-! The invariant of command boundaries (rules R6, R25, R28, R39): it holds after reset, each event that a step can
perform keeps it, and so does every step. -/

namespace Sys2Proof.Machine

/-! ### The first cells of a store -/

section FirstCells

variable {α : Type} {n : Nat} {ws cells : List α}

theorem take_overwrite_of_length (h : ws.length = n) : (overwrite ws cells).take n = ws := h ▸ take_overwrite ws cells

theorem drop_overwrite_of_length (h : ws.length = n) : (overwrite ws cells).drop n = cells.drop n :=
  h ▸ drop_overwrite ws cells

end FirstCells

namespace State.Inv

variable {s : State}

/-- The live words lie in the store (rules R23, R25). -/
theorem t_le_length (h : s.Inv) : s.t ≤ s.sStore.length := by
  have hr := h.roundsFit
  rw [h.sSize]
  simp only [State.t, keyCount, Params.sCap]
  omega

/-! ### Events that write no store -/

/-- What the host does beside the engine is not the invariant's. -/
theorem withHost (h : s.Inv) (moves : List HostMove) (answers : List HostAnswer) :
    ({ s with pending := moves, listing := answers } : State).Inv := { h with }

theorem withPending (h : s.Inv) (moves : List HostMove) : ({ s with pending := moves } : State).Inv :=
  h.withHost moves s.listing

theorem answer (h : s.Inv) (x : HostAnswer) : (answer x s).Inv := h.withHost s.pending (s.listing ++ [x])

theorem withBbase (h : s.Inv) (q : BitVec 16) : ({ s with bbase := q } : State).Inv := { h with }

theorem writeKeymem (h : s.Inv) {a : Nat} (ha : a < s.params.keyMaxBytes) (v : Byte) :
    ({ s with keymem := Memory.write s.keymem a v } : State).Inv :=
  { h with keymemOk := ⟨Memory.wf_write h.keymemOk.1 a v, Memory.within_write h.keymemOk.2 ha v⟩ }

theorem writeBuf (h : s.Inv) {j : Nat} (hj : j < s.params.bufWords) (v : Word) :
    ({ s with buf := Memory.write s.buf j v } : State).Inv :=
  { h with bufOk := ⟨Memory.wf_write h.bufOk.1 j v, Memory.within_write h.bufOk.2 hj v⟩ }

theorem raiseFault (h : s.Inv) (code : Result) : (raiseFault code s).Inv :=
  { h with idle := rfl, faultSet := fun _ => rfl }

/-- `RES = OK` needs no `FAULT`; what a dropped write has set stays. -/
theorem complete (h : s.Inv) : (complete s).Inv :=
  { h with idle := rfl, faultSet := fun hf => h.faultSet (.inr (hf.resolve_left (not_not_intro rfl))) }

/-! ### The effects of the commands -/

/-- INIT: the scrubbed store gets `2r + 2` undefined words, and the other cells stay zero (rules R24, R141). -/
theorem claimContext {r : Nat} (h : s.Inv) (hc : s.ctx = .empty) (hr : Machine.roundsFit r s) :
    (claimContext r s).Inv := by
  have hnr : (Machine.claimContext r s).nr.toNat = r := claimContext_nr_toNat h.paramsLegal hr
  have ht : (Machine.claimContext r s).t = keyCount r := congrArg keyCount hnr
  have hfits : keyCount r ≤ s.sStore.length := by
    rw [h.sSize]
    simp only [keyCount, Params.sCap]
    omega
  obtain ⟨-, hzero⟩ := h.emptyScrubbed hc
  refine { h with
    sSize := ?_, roundsFit := hnr.symm ▸ hr, emptyScrubbed := nofun, keyedDefined := nofun
    allocUndefined := fun _ => ?_, restZero := ?_ }
  · rw [claimContext_sStore, undefineKeys, length_overwrite (by simpa using hfits)]
    exact h.sSize
  · rw [ht, claimContext_sStore, undefineKeys, take_overwrite_of_length List.length_replicate]
    exact fun _ => List.eq_of_mem_replicate
  · rw [ht, claimContext_sStore, undefineKeys, drop_overwrite_of_length List.length_replicate]
    exact fun x hx => hzero x (List.mem_of_mem_drop hx)

/-- KEY: every live word is one of the schedule, and `L` is zero again (rules R39, R157). -/
theorem installKeys {c : Nat} {ks : List Word} (h : s.Inv) (hks : ks.length = s.t) (hc : c ≤ s.params.lCap) :
    (installKeys c ks s).Inv := by
  have hlen : (ks.map some).length = s.t := by rw [List.length_map, hks]
  refine { h with
    sSize := ?_, lSize := ?_, emptyScrubbed := nofun, allocUndefined := nofun, keyedDefined := fun _ => ?_
    restZero := ?_, transientsZero := ⟨rfl, rfl, h.transientsZero.2.2⟩, lZero := fun x hx => ?_ }
  · rw [installKeys_sStore, length_overwrite (hlen.trans_le h.t_le_length)]
    exact h.sSize
  · rw [installKeys_lStore, length_overwrite (by rw [List.length_replicate, h.lSize]; exact hc)]
    exact h.lSize
  · rw [installKeys_t, installKeys_sStore, take_overwrite_of_length hlen]
    simp
  · rw [installKeys_t, installKeys_sStore, drop_overwrite_of_length hlen]
    exact h.restZero
  · rcases mem_overwrite.1 hx with hx | hx
    · exact List.eq_of_mem_replicate hx
    · exact h.lZero x (List.mem_of_mem_drop hx)

/-- ENC and DEC: the transformed words are words of BUF that exist (rules R171, R181). -/
theorem storeBlocks {f : Block → Block} {n : Nat} {m : Memory 32} (h : s.Inv) (hf : blocksFit n s)
    (hm : transformBlocks f s.base n s.buf = some m) : (storeBlocks m s).Inv := by
  have hsize : word0 (s.base + n) ≤ s.params.bufWords := by
    simp only [word0, Params.bufWords]
    omega
  exact { h with
    transientsZero := ⟨h.transientsZero.1, h.transientsZero.2.1, rfl, rfl⟩
    bufOk := ⟨wf_transformBlocks h.bufOk.1 hm, within_transformBlocks h.bufOk.2 hsize hm⟩ }

/-- DESTROY: the live words are scrubbed and the others were zero already (rules R25, R192). -/
theorem releaseContext_scrubKeys (h : s.Inv) : (releaseContext (scrubKeys s)).Inv := by
  have hzero : ∀ x ∈ (releaseContext (scrubKeys s)).sStore, x = some 0 := by
    intro x hx
    rw [releaseContext_sStore, scrubKeys_sStore, mem_overwrite, List.length_replicate] at hx
    rcases hx with hx | hx
    · exact List.eq_of_mem_replicate hx
    · exact h.restZero x hx
  refine { h with
    sSize := ?_, emptyScrubbed := fun _ => ⟨rfl, hzero⟩, roundsFit := Nat.zero_le _, allocUndefined := nofun
    keyedDefined := nofun, restZero := fun x hx => hzero x (List.mem_of_mem_drop hx) }
  rw [releaseContext_sStore, scrubKeys_sStore,
    length_overwrite (List.length_replicate.trans_le h.t_le_length)]
  exact h.sSize

/-! ### Commands -/

/-- Each of the ways a command can end keeps the invariant. -/
theorem exec {i : Instr} {t : State} (h : s.Inv) (he : exec i s = .next t) : t.Inv := by
  cases exec_ended he with
  | faulted code => exact h.raiseFault code
  | claimed r _ hc hr => exact (h.claimContext hc hr).complete
  | keyed b l _ _ _ hf _ => exact (h.installKeys (length_mixedKey_s ..) (paddedCount_le hf)).complete
  | stored f n ks m _ _ hf _ hm => exact (h.storeBlocks hf hm).complete
  | destroyed => exact h.releaseContext_scrubKeys.complete

theorem acceptCommand {w : Word} {t : State} (h : s.Inv) (ha : acceptCommand w s = .next t) : t.Inv := by
  cases hd : decode w with
  | error e =>
    rw [acceptCommand_of_error hd] at ha
    cases ha
    exact h.raiseFault .eIllcmd
  | ok i => exact h.exec ((acceptCommand_eq_exec hd).symm.trans ha)

end State.Inv

/-! ### Host moves and steps -/

theorem hostWriteReg_cmd_idle {s : State} {w : Word} (hb : s.busy = false) :
    hostWriteReg .cmd w s = acceptCommand w s := by
  simp [hostWriteReg, hb]

theorem hostWriteReg_bbase_idle {s : State} {w : Word} (hb : s.busy = false) :
    hostWriteReg .bbase w s = .next { s with bbase := nField w } := by
  simp [hostWriteReg, hb, nField]

/-- The reset state of a machine with legal parameters (rules R39, R40). -/
theorem resetWith_inv {p : Params} (hp : p.Legal) : (State.resetWith p).Inv where
  paramsLegal := hp
  sSize := List.length_replicate
  lSize := List.length_replicate
  emptyScrubbed _ := ⟨rfl, fun _ => List.eq_of_mem_replicate⟩
  roundsFit := Nat.zero_le _
  allocUndefined := nofun
  keyedDefined := nofun
  restZero _ hx := List.eq_of_mem_replicate (List.mem_of_mem_drop hx)
  transientsZero := ⟨rfl, rfl, rfl, rfl⟩
  lZero _ := List.eq_of_mem_replicate
  idle := rfl
  faultSet := by rintro (hres | hovr) <;> contradiction
  keymemOk := ⟨.nil, nofun⟩
  bufOk := ⟨.nil, nofun⟩

namespace State.Inv

variable {s t : State}

theorem hostReset (h : s.Inv) : (hostReset s).Inv := (resetWith_inv h.paramsLegal).withHost s.pending s.listing

/-- An idle engine drops no write, so each move on a register is one of its three effects. -/
theorem hostWriteReg {r : Reg} {w : Word} (h : s.Inv) (hm : hostWriteReg r w s = .next t) : t.Inv := by
  cases r with
  | cmd => exact h.acceptCommand ((hostWriteReg_cmd_idle h.idle).symm.trans hm)
  | status => cases hm; exact h
  | bbase =>
    rw [hostWriteReg_bbase_idle h.idle] at hm
    cases hm
    exact h.withBbase _

theorem hostMove {m : HostMove} (h : s.Inv) (hm : hostMove m s = .next t) : t.Inv := by
  cases m with
  | writeReg r w => exact h.hostWriteReg hm
  | readReg r => cases hm; exact h.answer _
  | writeKey a v => obtain ⟨rfl, -, ha⟩ := onKeyByte_next hm; exact h.writeKeymem ha v
  | readKey a => obtain ⟨rfl, -, -⟩ := onKeyByte_next hm; exact h.answer _
  | writeBuf j v => obtain ⟨rfl, -, hj⟩ := onBufWord_next hm; exact h.writeBuf hj v
  | readBuf j => obtain ⟨rfl, -, -⟩ := onBufWord_next hm; exact h.answer _
  | reset => cases hm; exact h.hostReset

theorem step (h : s.Inv) (hs : step s = .next t) : t.Inv := by
  cases hp : s.pending with
  | nil =>
    rw [step_nil hp] at hs
    cases hs
    exact h
  | cons m rest =>
    rw [step_cons hp] at hs
    exact (h.withPending rest).hostMove hs

end State.Inv

/-- Settles O46: with no move left nothing changes; otherwise every move, and every command behind a write of `CMD`,
keeps each clause. -/
theorem stepKeepsTheInvariant : Obligations.StepKeepsTheInvariant := by
  unfold Obligations.StepKeepsTheInvariant
  exact fun _ _ h => h.step

/-- Settles O45: the parameters of the reset state are legal. -/
theorem resetMeetsTheInvariant : Obligations.ResetMeetsTheInvariant := by
  unfold Obligations.ResetMeetsTheInvariant
  exact resetWith_inv (by decide)

end Sys2Proof.Machine
end

section
/-! The decoder against the mask and match values of the opcode table, the number of legal words (rule R95), and a few
words of the test vectors. -/

namespace Sys2Proof

/-! ### Mask and match -/

/-- The mask of the rows with an operand keeps the upper half of the word. -/
theorem and_upperMask (w : Word) : w &&& 0xFFFF0000#32 = w >>> 16 <<< 16 := by
  rw [BitVec.shiftLeft_ushiftRight]
  rfl

/-- A word selects a row with an operand exactly when `ZERO` is clear and `OP` is the row's code. -/
theorem and_upperMask_eq_iff {w : Word} {code : Nat} (hcode : code < 16) :
    w &&& 0xFFFF0000#32 = BitVec.ofNat 32 (code * 2 ^ 28) ↔ zeroField w = 0#12 ∧ (opField w).toNat = code := by
  rw [and_upperMask, zeroField_eq_zero_iff, opField_toNat, BitVec.toNat_eq]
  simp only [BitVec.toNat_shiftLeft, BitVec.toNat_ushiftRight, BitVec.toNat_ofNat, Nat.shiftLeft_eq,
    Nat.shiftRight_eq_div_pow]
  omega

/-- A command that takes an operand: its row's mask and match value, and the operand from the low half of the word. -/
theorem decode_eq_ok_iff_mask {w : Word} {i : Instr} {code : Nat} (hi : i.opcode = code) (hcode : code < 16) :
    decode w = .ok i ↔
      w &&& 0xFFFF0000#32 = BitVec.ofNat 32 (code * 2 ^ 28) ∧ i.operand = w.toNat % 65536 := by
  rw [← hi] at hcode ⊢
  rw [and_upperMask_eq_iff hcode, decode_eq_ok_iff, nField_toNat, and_assoc, eq_comm (a := i.operand)]
  rfl

theorem decode_eq_destroy_iff {w : Word} : decode w = .ok .destroy ↔ w = 0x50000000#32 :=
  ⟨fun h => (encode_decode h).symm, fun h => h ▸ decode_encode (i := .destroy) trivial⟩

/-- One word selects two rows only if their match values agree where both masks have ones. -/
theorem match_and_mask_of_selectsRow {w : Word} {r1 r2 : Word × Word} (h1 : selectsRow w r1) (h2 : selectsRow w r2) :
    r1.2 &&& r2.1 = r2.2 &&& r1.1 := by
  rw [← h1, ← h2, BitVec.and_assoc, BitVec.and_assoc, BitVec.and_comm r1.1]

theorem opcodeRows_disjoint (w : Word) : opcodeRows.Pairwise (fun r1 r2 => ¬ (selectsRow w r1 ∧ selectsRow w r2)) := by
  have hrows : opcodeRows.Pairwise (fun r1 r2 => r1.2 &&& r2.1 ≠ r2.2 &&& r1.1) := by simp [opcodeRows]
  exact hrows.imp fun hne ⟨h1, h2⟩ => hne (match_and_mask_of_selectsRow h1 h2)

/-- Settles O2: the mask condition of each row is that of the decoder on `ZERO` and `OP`; DESTROY has one word; no two
match values agree under both masks. -/
theorem decodeSelectsByMaskAndMatch : Obligations.DecodeSelectsByMaskAndMatch := by
  unfold Obligations.DecodeSelectsByMaskAndMatch
  refine fun w n => ⟨decode_eq_ok_iff_mask (code := 1) rfl (by decide),
    decode_eq_ok_iff_mask (code := 2) rfl (by decide), decode_eq_ok_iff_mask (code := 3) rfl (by decide),
    decode_eq_ok_iff_mask (code := 4) rfl (by decide), ?_, opcodeRows_disjoint w⟩
  have hall : w &&& 0xFFFFFFFF#32 = w := BitVec.and_allOnes
  rw [hall, decode_eq_destroy_iff]

/-! ### The number of legal words -/

/-- The legal words in rising order: 65536 for each of the codes 1 to 4, then DESTROY's. -/
def legalWord (x : Fin (4 * 65536 + 1)) : Word := BitVec.ofNat 32 ((x.val / 65536 + 1) * 2 ^ 28 + x.val % 65536)

theorem toNat_legalWord (x : Fin (4 * 65536 + 1)) :
    (legalWord x).toNat = (x.val / 65536 + 1) * 2 ^ 28 + x.val % 65536 := by
  rw [legalWord, BitVec.toNat_ofNat]
  omega

theorem legalWord_injective : Function.Injective legalWord := by
  intro x y h
  have hval := congrArg BitVec.toNat h
  rw [toNat_legalWord, toNat_legalWord] at hval
  omega

/-- The legal words by their value (rule R96). -/
theorem exists_decode_eq_ok_iff_toNat {w : Word} :
    (∃ i, decode w = .ok i) ↔
      w.toNat / 2 ^ 16 % 2 ^ 12 = 0 ∧
        (1 ≤ w.toNat / 2 ^ 28 ∧ w.toNat / 2 ^ 28 ≤ 4 ∨ w.toNat / 2 ^ 28 = 5 ∧ w.toNat % 2 ^ 16 = 0) := by
  rw [exists_decode_eq_ok_iff, zeroField_eq_zero_iff, nField_eq_zero_iff, opField_toNat]

theorem range_legalWord : Set.range legalWord = { w | ∃ i, decode w = .ok i } := by
  ext w
  rw [Set.mem_ofPred_eq, exists_decode_eq_ok_iff_toNat]
  constructor
  · rintro ⟨x, rfl⟩
    rw [toNat_legalWord]
    omega
  · intro h
    refine ⟨⟨(w.toNat / 2 ^ 28 - 1) * 65536 + w.toNat % 2 ^ 16, by omega⟩, BitVec.eq_of_toNat_eq ?_⟩
    rw [toNat_legalWord]
    dsimp only
    omega

/-- Settles O3: the legal words are numbered without repetition. -/
theorem legalWordCount : Obligations.LegalWordCount := by
  unfold Obligations.LegalWordCount
  calc Nat.card { w : Word // ∃ i, decode w = .ok i }
      = Nat.card (Set.range legalWord) := by rw [range_legalWord]; rfl
    _ = 4 * 65536 + 1 := by rw [Nat.card_range_of_injective legalWord_injective, Nat.card_fin]

/-- Settles O5: the five legal words are those of the encoder; in the others `ZERO`, or DESTROY's `N`, is not 0. -/
theorem sampleWordsDecode : Obligations.SampleWordsDecode := by
  unfold Obligations.SampleWordsDecode
  refine ⟨decode_encode (i := .init 10) ?_, decode_encode (i := .key 5) ?_, decode_encode (i := .enc 4) ?_,
    decode_encode (i := .dec 2) ?_, decode_encode (i := .destroy) trivial, decode_of_reserved (by decide), rfl⟩ <;>
    decide

end Sys2Proof
end

section
/-! The step and the host's moves: the command behind a write of `CMD` (rule R90), the moves that fault, reset
(rule R240), the bits of `STATUS` (rule R34), the moves of an `LDKEY` line (rule R99), and what the host's moves cannot
read (rule R37). -/

namespace Sys2Proof.Machine

/-! ### One step -/

section Step

variable {s : State} {rest : List HostMove} {w : Word} {i : Instr}

/-- The step that runs a command (rule R90). -/
theorem step_writeCmd_of_decode (hp : s.pending = .writeReg .cmd w :: rest) (hb : s.busy = false)
    (hd : decode w = .ok i) : step s = exec i { s with pending := rest, busy := true } :=
  (step_writeCmd_idle hp hb).trans (acceptCommand_of_ok hd)

theorem decode_of_decodeTableWord {nbits n : Nat} (h : decodeTableWord nbits n = some i) :
    decode (tableWord nbits n) = .ok i := by
  unfold decodeTableWord at h
  split at h
  next j hj => cases h; exact hj
  · cases h

end Step

/-- Settles O6: the write is accepted and its word decoded; `withFetchWord` puts such a write before the pending
moves. -/
theorem stepRunsDecodedCommand : Obligations.StepRunsDecodedCommand := by
  unfold Obligations.StepRunsDecodedCommand
  exact ⟨fun _ _ _ _ hb hp hd => step_writeCmd_of_decode hp hb hd,
    fun _ _ _ _ hd => step_writeCmd_of_decode rfl rfl (decode_of_decodeTableWord hd)⟩

/-- Settles O7: the model's idle step. -/
theorem stepIdlesWithoutMoves : Obligations.StepIdlesWithoutMoves := by
  unfold Obligations.StepIdlesWithoutMoves
  exact fun _ => step_nil

/-- Settles O14: reset takes every value from `State.resetWith` and leaves the parameters and the host's own lists. -/
theorem hostResetRestoresResetValues : Obligations.HostResetRestoresResetValues := by
  unfold Obligations.HostResetRestoresResetValues
  exact fun _ _ => step_reset

/-- Settles O52: a host read answers what the cell holds, here nothing. -/
theorem unwrittenReadsAnswerNone : Obligations.UnwrittenReadsAnswerNone := by
  unfold Obligations.UnwrittenReadsAnswerNone
  refine fun s a rest hb => ⟨fun hp ha hm => ?_, fun hp ha hm => ?_⟩
  · rw [step_readKey hp hb ha, hm]
  · rw [step_readBuf hp hb ha, hm]

/-! ### Moves that fault -/

section Faulting

variable {s t : State} {a : Nat}

theorem onKeyByte_busy (hb : s.busy = true) : onKeyByte a s t = .fault .memoryRace := if_pos hb

theorem onBufWord_busy (hb : s.busy = true) : onBufWord a s t = .fault .memoryRace := if_pos hb

theorem onKeyByte_missing (hb : s.busy = false) (ha : s.params.keyMaxBytes ≤ a) :
    onKeyByte a s t = .fault (.noSuchKeyByte a) := by
  simp [onKeyByte, hb, Nat.not_lt_of_le ha]

theorem onBufWord_missing (hb : s.busy = false) (ha : s.params.bufWords ≤ a) :
    onBufWord a s t = .fault (.noSuchBufWord a) := by
  simp [onBufWord, hb, Nat.not_lt_of_le ha]

end Faulting

/-- Settles O13: writes and reads of a memory have the same two guards. -/
theorem missingOrBusyCellsFault : Obligations.MissingOrBusyCellsFault := by
  unfold Obligations.MissingOrBusyCellsFault
  refine fun s a v x rest => ⟨?_, ?_⟩
  · rintro (hp | hp) <;> rw [step_cons hp]
    · exact ⟨fun hb => onKeyByte_busy hb, fun hb ha => onKeyByte_missing hb ha⟩
    · exact ⟨fun hb => onKeyByte_busy hb, fun hb ha => onKeyByte_missing hb ha⟩
  · rintro (hp | hp) <;> rw [step_cons hp]
    · exact ⟨fun hb => onBufWord_busy hb, fun hb ha => onBufWord_missing hb ha⟩
    · exact ⟨fun hb => onBufWord_busy hb, fun hb ha => onBufWord_missing hb ha⟩

/-! ### The bits of `STATUS` -/

theorem getLsbD_eq_toNat_mod {n : Nat} (x : BitVec n) (i : Nat) : x.getLsbD i = decide (x.toNat / 2 ^ i % 2 = 1) :=
  Nat.testBit_eq_decide_div_mod_eq

theorem decide_toNat_eq_one (b : Bool) : decide (b.toNat = 1) = b := by cases b <;> rfl

/-- Every field of `STATUS` at the weight of its lowest bit, and nothing above `OVR` (rule R34). -/
theorem statusWord_fields (s : State) :
    (statusWord s).toNat / 2 ^ 0 % 2 = s.busy.toNat ∧
    (statusWord s).toNat / 2 % 4 = (ctxCode s.ctx).toNat ∧
    (statusWord s).toNat / 2 ^ 3 % 2 = s.fault.toNat ∧
    (statusWord s).toNat / 16 % 16 = (resCode s.res).toNat ∧
    (statusWord s).toNat / 256 % 256 = s.nr.toNat ∧
    (statusWord s).toNat / 2 ^ 16 % 2 = s.ovr.toNat ∧
    (statusWord s).toNat / 2 ^ 17 = 0 := by
  have hbusy := s.busy.toNat_le
  have hfault := s.fault.toNat_le
  have hovr := s.ovr.toNat_le
  rw [toNat_statusWord]
  omega

theorem step_writeStatus {s : State} {w : Word} {rest : List HostMove} (hp : s.pending = .writeReg .status w :: rest) :
    step s = .next { s with pending := rest } := step_cons hp

/-- Settles O10: the fields of the word, a flag being the one bit of its field; the moves on `STATUS`. -/
theorem statusRegister : Obligations.StatusRegister := by
  unfold Obligations.StatusRegister
  refine fun s => ⟨?_, fun w rest => ⟨step_readReg, step_writeStatus⟩⟩
  obtain ⟨hbusy, hctx, hfault, hres, hnr, hovr, hzero⟩ := statusWord_fields s
  rw [getLsbD_eq_toNat_mod, getLsbD_eq_toNat_mod, getLsbD_eq_toNat_mod, hbusy, hfault, hovr, decide_toNat_eq_one,
    decide_toNat_eq_one, decide_toNat_eq_one, hctx, hres]
  refine ⟨rfl, ?_, rfl, ?_, hnr, rfl, hzero⟩
  · cases s.ctx <;> rfl
  · cases s.res <;> rfl

/-! ### The moves of an `LDKEY` line -/

/-- KEYMEM after the bytes `vs` are written from byte `a` on. -/
def writeBytes : Memory 8 → Nat → List Byte → Memory 8
  | m, _, [] => m
  | m, a, v :: vs => writeBytes (Memory.write m a v) (a + 1) vs

theorem read_writeBytes_below {m : Memory 8} {a j : Nat} (vs : List Byte) (hj : j < a) :
    Memory.read (writeBytes m a vs) j = Memory.read m j := by
  induction vs generalizing m a with
  | nil => rfl
  | cons v vs ih => rw [writeBytes, ih (by omega), Memory.read_write_other _ _ (by omega)]

theorem read_writeBytes_above {m : Memory 8} {a j : Nat} {vs : List Byte} (hj : a + vs.length ≤ j) :
    Memory.read (writeBytes m a vs) j = Memory.read m j := by
  induction vs generalizing m a with
  | nil => rfl
  | cons v vs ih =>
    rw [List.length_cons] at hj
    rw [writeBytes, ih (by omega), Memory.read_write_other _ _ (by omega)]

theorem read_writeBytes_inside {m : Memory 8} {a j : Nat} {vs : List Byte} (hj : j < vs.length) :
    Memory.read (writeBytes m a vs) (a + j) = vs[j]? := by
  induction vs generalizing m a j with
  | nil => cases hj
  | cons v vs ih =>
    rw [writeBytes]
    cases j with
    | zero => exact (read_writeBytes_below vs (Nat.lt_add_one a)).trans (Memory.read_write_same m a v)
    | succ j =>
      have hpos : a + (j + 1) = a + 1 + j := by omega
      rw [hpos, ih (Nat.lt_of_succ_lt_succ hj), List.getElem?_cons_succ]

theorem run_succ_of_next {M : Host.Core} {s t : M.State} (n : Nat) (h : M.step s = .next t) :
    M.run (n + 1) s = M.run n t := by
  rw [Host.Core.run, h]

theorem core_run_succ {s t : State} (n : Nat) (h : step s = .next t) : core.run (n + 1) s = core.run n t :=
  run_succ_of_next (M := core) n h

/-- The writes of bytes that fit, run to the end. -/
theorem core_run_keyWrites {s : State} {a : Nat} {vs : List Byte} (hb : s.busy = false)
    (hfit : a + vs.length ≤ s.params.keyMaxBytes) (hp : s.pending = keyWrites a vs) :
    core.run vs.length s = .next { s with pending := [], keymem := writeBytes s.keymem a vs } := by
  induction vs generalizing s a with
  | nil =>
    have hs : s = { s with pending := [] } := by rw [← show s.pending = [] from hp]
    exact congrArg Host.Outcome.next hs
  | cons v vs ih =>
    rw [List.length_cons] at hfit
    rw [List.length_cons, core_run_succ _ (step_writeKey hp hb (by omega))]
    exact ih hb (by dsimp only; omega) rfl

/-- Settles O16: the line is the writes of its bytes from byte 0 on, and each byte of it is written once. -/
theorem ldkeyLoadsItsBytes : Obligations.LdkeyLoadsItsBytes := by
  unfold Obligations.LdkeyLoadsItsBytes
  refine fun vs s hb hfit hp => ⟨writeBytes s.keymem 0 vs, core_run_keyWrites hb (by omega) hp, fun a ha => ?_,
    fun a ha => read_writeBytes_above (by omega)⟩
  rw [← read_writeBytes_inside (m := s.keymem) (a := 0) ha, Nat.zero_add]

/-! ### What the host's moves cannot read -/

/-- The state `s` with the registers and stores of `s'` that the host has no read path to (rule R37). -/
def State.withSecretsOf (s s' : State) : State :=
  { s with sStore := s'.sStore, lStore := s'.lStore, a := s'.a, b := s'.b, d0 := s'.d0, d1 := s'.d1 }

section Secrets

variable {s s' t : State} {m : HostMove}

theorem eq_withSecretsOf (h : s.hideSecrets = s'.hideSecrets) : s' = s.withSecretsOf s' :=
  calc s' = s'.hideSecrets.withSecretsOf s' := rfl
    _ = s.hideSecrets.withSecretsOf s' := by rw [h]
    _ = s.withSecretsOf s' := rfl

theorem hostWriteReg_bbase_busy {w : Word} (hb : s.busy = true) : hostWriteReg .bbase w s = .next (dropWrite s) := by
  simp [hostWriteReg, hb]

/-- A move that is neither a command nor reset does the same whatever the secrets are, and leaves them and `NR`. -/
def IgnoresSecrets (m : HostMove) (s t : State) : Prop :=
  (∀ s', hostMove m (s.withSecretsOf s') = .next (t.withSecretsOf s')) ∧ t = t.withSecretsOf s ∧ t.nr = s.nr

theorem hostMove_ignoresSecrets (hcmd : ∀ w, m ≠ .writeReg .cmd w) (hreset : m ≠ .reset)
    (h : hostMove m s = .next t) : IgnoresSecrets m s t := by
  cases m with
  | writeReg r w =>
    cases r with
    | cmd => exact absurd rfl (hcmd w)
    | status => cases h; exact ⟨fun _ => rfl, rfl, rfl⟩
    | bbase =>
      cases hb : s.busy with
      | true =>
        obtain rfl := Host.Outcome.next.inj ((hostWriteReg_bbase_busy hb).symm.trans h)
        exact ⟨fun _ => hostWriteReg_bbase_busy hb, rfl, rfl⟩
      | false =>
        obtain rfl := Host.Outcome.next.inj ((hostWriteReg_bbase_idle hb).symm.trans h)
        exact ⟨fun _ => hostWriteReg_bbase_idle hb, rfl, rfl⟩
  | readReg r => cases h; exact ⟨fun _ => by cases r <;> rfl, rfl, rfl⟩
  | writeKey | readKey =>
    obtain ⟨rfl, hb, ha⟩ := onKeyByte_next h
    exact ⟨fun _ => onKeyByte_ok hb ha, rfl, rfl⟩
  | writeBuf | readBuf =>
    obtain ⟨rfl, hb, hj⟩ := onBufWord_next h
    exact ⟨fun _ => onBufWord_ok hb hj, rfl, rfl⟩
  | reset => exact absurd rfl hreset

/-- Reset looks at no secret. -/
theorem hostReset_withSecretsOf (s s' : State) : hostReset (s.withSecretsOf s') = hostReset s := rfl

end Secrets

/-- Settles O44: the two states differ in the secrets alone; every move but a command ignores them, and reset overwrites
them with values that do not depend on them. -/
theorem hostCannotReadKeyMaterial : Obligations.HostCannotReadKeyMaterial := by
  unfold Obligations.HostCannotReadKeyMaterial
  intro s s' t m rest hp hcmd hs h
  have hp' : s'.pending = m :: rest := (congrArg State.pending hs).symm.trans hp
  have hs' : { s' with pending := rest } = ({ s with pending := rest } : State).withSecretsOf s' := by
    rw [eq_withSecretsOf hs]
    rfl
  rw [step_cons hp] at h
  rw [step_cons hp', hs']
  by_cases hreset : m = .reset
  · subst hreset
    exact ⟨⟨t, (congrArg Host.Outcome.next (hostReset_withSecretsOf _ s')).trans h, rfl⟩, absurd rfl⟩
  · obtain ⟨hmove, hsecrets, hnr⟩ := hostMove_ignoresSecrets hcmd hreset h
    refine ⟨⟨_, hmove s', rfl⟩, fun _ => ?_⟩
    rw [hsecrets]
    exact ⟨rfl, rfl, rfl, rfl, rfl, rfl, hnr⟩

end Sys2Proof.Machine
end

section
/-! The commands as a whole: their frame (rules R22, R35, R61, R177), DESTROY and what can follow it (rule R193), KEY and
its mixing pass (rules R151, R155), and what the invariant gives (rules R23, R39). -/

namespace Sys2Proof.Machine

/-! ### What commands never write -/

/-- Settles O22: the fields that each end of a command writes, and the command behind it. -/
theorem whatCommandsNeverWrite : Obligations.WhatCommandsNeverWrite := by
  unfold Obligations.WhatCommandsNeverWrite
  intro i s t h
  cases exec_ended h with
  | faulted code => exact ⟨rfl, rfl, rfl, rfl, rfl, rfl, rfl, fun _ => rfl, absurd rfl, absurd rfl, absurd rfl⟩
  | claimed r hi =>
    exact ⟨rfl, rfl, rfl, rfl, rfl, rfl, rfl, id, fun _ => .inl ⟨r, hi⟩, fun _ => .inl ⟨r, hi⟩, absurd rfl⟩
  | keyed b l hi =>
    exact ⟨rfl, rfl, rfl, rfl, rfl, rfl, rfl, id, absurd rfl, fun _ => .inr (.inl ⟨b, hi⟩), absurd rfl⟩
  | stored f n ks m hi =>
    exact ⟨rfl, rfl, rfl, rfl, rfl, rfl, rfl, id, absurd rfl, absurd rfl,
      fun _ => ⟨n, hi.imp And.left And.left⟩⟩
  | destroyed hi =>
    exact ⟨rfl, rfl, rfl, rfl, rfl, rfl, rfl, id, fun _ => .inr hi, fun _ => .inr (.inr hi), absurd rfl⟩

/-! ### After DESTROY -/

/-- Without a context every command but INIT faults `E_STATE` (rule R38). -/
theorem exec_of_empty {i : Instr} {s : State} (hc : s.ctx = .empty) (hi : ∀ r, i ≠ .init r) :
    exec i s = .next (raiseFault .eState s) := by
  cases i with
  | init r => exact absurd rfl (hi r)
  | key b => exact execKey_empty hc
  | enc n => exact runCipher_empty hc
  | dec n => exact runCipher_empty hc
  | destroy => exact execDestroy_empty hc

/-- Without a context the store is its `S_CAP` zero cells (rules R25, R39). -/
theorem State.Inv.sStore_of_empty {s : State} (h : s.Inv) (hc : s.ctx = .empty) :
    s.sStore = List.replicate s.params.sCap (some 0) := by
  obtain ⟨-, hzero⟩ := h.emptyScrubbed hc
  exact List.eq_replicate_iff.2 ⟨h.sSize, hzero⟩

/-- INIT in a scrubbed store: `2r + 2` undefined words, then zeros. -/
theorem State.Inv.claimContext_sStore {s : State} (h : s.Inv) (hc : s.ctx = .empty) (r : Nat) :
    (Machine.claimContext r s).sStore =
      List.replicate (keyCount r) none ++ List.replicate (s.params.sCap - keyCount r) (some 0) := by
  rw [Machine.claimContext_sStore, undefineKeys_eq, h.sStore_of_empty hc, List.drop_replicate]

/-- Settles O26: DESTROY of a live context completes without one; INIT then writes a store that the invariant says is
zero. -/
theorem afterDestroyOnlyInitRuns : Obligations.AfterDestroyOnlyInitRuns := by
  unfold Obligations.AfterDestroyOnlyInitRuns
  intro s t h hc he
  have ht : t.Inv := h.exec he
  rw [exec_destroy, execDestroy_live hc] at he
  cases he
  refine ⟨fun i hi => exec_of_empty rfl hi, fun r hr => ⟨_, execInit_claims rfl hr, rfl, rfl, rfl, ?_⟩⟩
  exact ht.claimContext_sStore rfl r

/-! ### KEY and its mixing pass -/

/-- The pass as a fold over the step numbers in rising order (rule R155). -/
theorem mixSteps_eq_foldl (t c n : Nat) (m : Mixing) :
    mixSteps t c n m = (List.range n).foldl (fun m i => mixStep t c i m) m := by
  induction n with
  | zero => rfl
  | succ n ih => rw [mixSteps_succ, ih, List.range_succ, List.foldl_append, List.foldl_cons, List.foldl_nil]

/-- Settles O31: the fold by induction on the number of steps; no step changes the length of an array. -/
theorem mixingPassInOrder : Obligations.MixingPassInOrder := by
  unfold Obligations.MixingPassInOrder
  refine fun t c l => ⟨mixSteps_eq_foldl t c _ _, fun ht hc hl n i => ⟨?_, ?_⟩⟩
  · rw [length_mixSteps_s, length_seedKeys]
    exact Nat.mod_lt i ht
  · rw [length_mixSteps_l, hl]
    exact Nat.mod_lt i hc

/-- All the cells that the completed KEY writes, with the stores written out (rule R157). -/
theorem installKeys_eq {c : Nat} {ks : List Word} {s : State} (hks : ks.length = s.t) :
    installKeys c ks s =
      { s with
        sStore := ks.map some ++ s.sStore.drop s.t
        lStore := List.replicate c 0 ++ s.lStore.drop c
        a := 0, b := 0, ctx := .keyed } := by
  rw [installKeys, overwrite_replicate, overwrite, List.length_map, hks]

/-- Settles O27: one fault per failing check; on written key bytes the padded key loads and its schedule is
installed. -/
theorem keyDerivesTheSchedule : Obligations.KeyDerivesTheSchedule := by
  unfold Obligations.KeyDerivesTheSchedule
  refine fun b s => ⟨encode_key_toNat, fun hc => execKey_empty hc, fun hc hb => hb ▸ execKey_noBytes hc,
    fun hc hf hb => execKey_tooLong hc hb (Nat.not_le_of_gt hf), fun hc hb hf hw => ?_⟩
  obtain ⟨l, hl⟩ := loadPaddedKey_isSome_iff (c := paddedCount b).2 hw
  have hks : (mixedKey s.t (paddedCount b) l).s.length = s.t := length_mixedKey_s ..
  refine ⟨l, _, hl, rfl, hks, ?_⟩
  rw [exec_key, execKey_installs hc (Nat.ne_of_gt hb) hf hl, installKeys_eq hks]
  rfl

/-! ### What the invariant gives -/

/-- Under the invariant a keyed context has its `T` round keys (rules R23, R39). -/
theorem State.Inv.exists_roundKeys {s : State} (h : s.Inv) (hc : s.ctx = .keyed) :
    ∃ ks, s.roundKeys = some ks ∧ ks.length = s.t := by
  obtain ⟨ks, hks, hlen⟩ := definedWords_of_isSome h.t_le_length (h.keyedDefined hc)
  refine ⟨ks, ?_, hlen⟩
  simpa [State.roundKeys, hc] using hks

section Answers

variable {f : List Word → Nat → Block → Block} {n b : Nat} {s : State}

/-- Every byte of KEYMEM and every word of BUF holds a value. -/
def AllWritten (s : State) : Prop :=
  (∀ a, a < s.params.keyMaxBytes → (Memory.read s.keymem a).isSome = true) ∧
  (∀ j, j < 2 * s.params.bufBlocks → (Memory.read s.buf j).isSome = true)

/-- The command answers a next state, and completes there exactly if `p`. -/
def CompletesIff (x : Answer) (p : Prop) : Prop := ∃ t, x = .next t ∧ (t.res = .ok ↔ p)

theorem completesIff_of_fault {x : Answer} {p : Prop} {code : Result} (hx : x = .next (raiseFault code s))
    (hcode : code ≠ .ok) (hp : ¬ p) : CompletesIff x p := ⟨_, hx, iff_of_false hcode hp⟩

theorem completesIff_of_complete {x : Answer} {p : Prop} (hx : x = .next (complete s)) (hp : p) : CompletesIff x p :=
  ⟨_, hx, iff_of_true rfl hp⟩

/-- A cipher command is refused for a round key without a value only in a keyed context that has such a key. -/
theorem runCipher_ne_undefinedRoundKey (h : s.Inv) : runCipher f n s ≠ .refused .undefinedRoundKey := by
  rcases runCipher_cases f n s with
    ⟨-, e⟩ | ⟨-, e⟩ | ⟨-, -, e⟩ | ⟨hc, -, hk, -⟩ | ⟨-, -, -, e⟩ | ⟨-, -, ks, m, -, -, e⟩
  · rw [e]; nofun
  · rw [e]; nofun
  · rw [e]; nofun
  · obtain ⟨ks, hks, -⟩ := h.exists_roundKeys hc
    rw [hk] at hks
    cases hks
  · rw [e]; nofun
  · rw [e]; nofun

theorem exec_ne_undefinedRoundKey (h : s.Inv) (i : Instr) : exec i s ≠ .refused .undefinedRoundKey := by
  cases i with
  | init r => rcases execInit_cases r s with ⟨-, e⟩ | ⟨-, -, e⟩ | ⟨-, -, e⟩ <;> rw [exec_init, e] <;> nofun
  | key b =>
    rcases execKey_cases b s with ⟨-, e⟩ | ⟨-, -, e⟩ | ⟨-, -, -, e⟩ | ⟨-, -, -, -, e⟩ | ⟨-, -, -, l, -, e⟩ <;>
      rw [exec_key, e] <;> nofun
  | enc n => exact runCipher_ne_undefinedRoundKey (f := encBlock) h
  | dec n => exact runCipher_ne_undefinedRoundKey (f := decBlock) h
  | destroy => rcases execDestroy_cases s with ⟨-, e⟩ | ⟨-, e⟩ <;> rw [exec_destroy, e] <;> nofun

theorem execInit_completesIff (r : Nat) (s : State) :
    CompletesIff (execInit r s) (s.ctx = .empty ∧ roundsFit r s) := by
  rcases execInit_cases r s with ⟨hc, e⟩ | ⟨-, hr, e⟩ | ⟨hc, hr, e⟩
  · exact completesIff_of_fault e (by decide) fun hp => hc hp.1
  · exact completesIff_of_fault e (by decide) fun hp => hr hp.2
  · exact completesIff_of_complete e ⟨hc, hr⟩

theorem execKey_completesIff (hw : AllWritten s) :
    CompletesIff (execKey b s) (s.ctx ≠ .empty ∧ 1 ≤ b ∧ keyFits b s) := by
  rcases execKey_cases b s with ⟨hc, e⟩ | ⟨-, hb, e⟩ | ⟨-, -, hf, e⟩ | ⟨-, -, hf, hl, -⟩ | ⟨hc, hb, hf, l, -, e⟩
  · exact completesIff_of_fault e (by decide) fun hp => hp.1 hc
  · exact completesIff_of_fault e (by decide) fun hp => absurd hp.2.1 (by omega)
  · exact completesIff_of_fault e (by decide) fun hp => hf hp.2.2
  · obtain ⟨l, hl'⟩ := loadPaddedKey_isSome_iff (c := paddedCount b).2 fun a ha => hw.1 a (Nat.lt_of_lt_of_le ha hf)
    rw [hl] at hl'
    cases hl'
  · exact completesIff_of_complete e ⟨hc, Nat.pos_of_ne_zero hb, hf⟩

theorem runCipher_completesIff (h : s.Inv) (hw : AllWritten s) :
    CompletesIff (runCipher f n s) (s.ctx = .keyed ∧ blocksFit n s) := by
  cases hc : s.ctx with
  | empty => exact completesIff_of_fault (runCipher_empty hc) (by decide) (by simp)
  | alloc => exact completesIff_of_fault (runCipher_alloc hc) (by decide) (by simp)
  | keyed =>
    by_cases hf : blocksFit n s
    · obtain ⟨ks, hk, -⟩ := h.exists_roundKeys hc
      obtain ⟨m, -, hrun⟩ := runCipher_of_written (f := f) hc hk hf fun j _ hj =>
        hw.2 j (by simp only [word0] at hj; omega)
      exact completesIff_of_complete hrun ⟨rfl, hf⟩
    · exact completesIff_of_fault (runCipher_outside hc hf) (by decide) fun hp => hf hp.2

theorem execDestroy_completesIff (s : State) : CompletesIff (execDestroy s) (s.ctx ≠ .empty) := by
  rcases execDestroy_cases s with ⟨hc, e⟩ | ⟨hc, e⟩
  · exact completesIff_of_fault e (by decide) (not_not_intro hc)
  · exact completesIff_of_complete e hc

end Answers

/-- Settles O47: the live cells of a keyed context are defined, which excludes the one refusal; written cells exclude the
others, and then each command completes or takes the fault of a check. -/
theorem invariantGivesEveryRoundKey : Obligations.InvariantGivesEveryRoundKey := by
  unfold Obligations.InvariantGivesEveryRoundKey
  refine fun s h => ⟨h.exists_roundKeys, exec_ne_undefinedRoundKey h, fun hkey hbuf i => ?_⟩
  have hw : AllWritten s := ⟨hkey, hbuf⟩
  cases i with
  | init r => exact execInit_completesIff r s
  | key b => exact execKey_completesIff hw
  | enc n => exact runCipher_completesIff h hw
  | dec n => exact runCipher_completesIff h hw
  | destroy => exact execDestroy_completesIff s

end Sys2Proof.Machine
end

section
/-! ENC and DEC against each other: the block functions are inverse (rule R184), so each command undoes the other on BUF,
and a run of blocks is two shorter runs (rules R176, R186). -/

namespace Sys2Proof.Machine

/-! ### The block functions -/

section Blocks

variable (ks : List Word)

/-- An amount is one that the rotators are defined for (rules R124, R125). -/
theorem amt5_le (x : Word) : amt5 x ≤ 31 := by
  rw [amt5_eq_mod]
  omega

/-- Undoing a round restores `d1` first and uses it to restore `d0`. -/
theorem decRound_encRound (k : Nat) (x : Block) : decRound ks k (encRound ks k x) = x := by
  simp [decRound, encRound, amt5_le]

theorem encRound_decRound (k : Nat) (x : Block) : encRound ks k (decRound ks k x) = x := by
  simp [decRound, encRound, amt5_le]

/-- The last round of encryption is the first one undone. -/
theorem decRounds_encRounds (n : Nat) (x : Block) : decRounds ks n (encRounds ks n x) = x := by
  induction n with
  | zero => rfl
  | succ n ih => rw [encRounds, decRounds, decRound_encRound, ih]

theorem encRounds_decRounds (n : Nat) (x : Block) : encRounds ks n (decRounds ks n x) = x := by
  induction n generalizing x with
  | zero => rfl
  | succ n ih => rw [decRounds, encRounds, ih, encRound_decRound]

theorem decBlock_encBlock (n : Nat) (x : Block) : decBlock ks n (encBlock ks n x) = x := by
  simp only [decBlock, encBlock, decRounds_encRounds, sub32_add32]

theorem encBlock_decBlock (n : Nat) (x : Block) : encBlock ks n (decBlock ks n x) = x := by
  simp only [decBlock, encBlock, add32_sub32]
  exact encRounds_decRounds ks n x

end Blocks

/-- Settles O40: each round undoes its counterpart; a function that undoes `EncBlock` is determined by
`EncBlock (DecBlock x) = x`. -/
theorem blockRoundTrip : Obligations.BlockRoundTrip := by
  unfold Obligations.BlockRoundTrip
  refine fun ks n => ⟨decBlock_encBlock ks n, encBlock_decBlock ks n, fun f hf => funext fun x => ?_⟩
  calc f x = f (encBlock ks n (decBlock ks n x)) := by rw [encBlock_decBlock]
    _ = decBlock ks n x := hf (decBlock ks n x)

/-! ### One command after the other -/

section RoundTrip

variable {f g : Block → Block} {q n : Nat} {m m' m'' : Memory 32}

/-- Words inside and outside the range read as they did before both transformations. -/
theorem read_transformBlocks_inverse (hgf : ∀ x, g (f x) = x) (h : transformBlocks f q n m = some m')
    (h' : transformBlocks g q n m' = some m'') (j : Nat) : Memory.read m'' j = Memory.read m j := by
  by_cases hj : j < word0 q ∨ word0 (q + n) ≤ j
  · rw [read_transformBlocks_outside h' hj, read_transformBlocks_outside h hj]
  · simp only [word0] at hj
    obtain ⟨i, hi, hk⟩ : ∃ i < n, q + i = j / 2 := ⟨j / 2 - q, by omega, by omega⟩
    obtain ⟨x, hx, hfx⟩ := readBlock_transformBlocks h hi
    obtain ⟨y, hy, hgy⟩ := readBlock_transformBlocks h' hi
    obtain rfl : f x = y := Option.some.inj (hfx.symm.trans hy)
    rw [hgf, hk] at hgy
    rw [hk] at hx
    obtain ⟨h0, h1⟩ := readBlock_eq_some.1 hx
    obtain ⟨h0'', h1''⟩ := readBlock_eq_some.1 hgy
    rcases eq_word0_or_word1 j with hj | hj
    · rw [hj, h0, h0'']
    · rw [hj, h1, h1'']

/-- A transformation with the inverse function restores a canonical BUF. -/
theorem transformBlocks_inverse (hm : Memory.wf m) (hgf : ∀ x, g (f x) = x)
    (h : transformBlocks f q n m = some m') : transformBlocks g q n m' = some m := by
  obtain ⟨m'', h'⟩ : ∃ m'', transformBlocks g q n m' = some m'' := by
    refine transformBlocks_isSome_iff.2 fun i hi => ?_
    obtain ⟨x, -, hfx⟩ := readBlock_transformBlocks h hi
    rw [hfx]
    rfl
  rw [h', Memory.ext_read (wf_transformBlocks (wf_transformBlocks hm h) h') hm
    (read_transformBlocks_inverse hgf h h')]

/-- The second command finds the context, the keys and the base of the first. -/
theorem runCipher_inverse {f g : List Word → Nat → Block → Block} {n : Nat} {s : State} {ks : List Word}
    (hgf : ∀ x, g ks s.nr.toNat (f ks s.nr.toNat x) = x) (hc : s.ctx = .keyed) (hk : s.roundKeys = some ks)
    (hf : blocksFit n s) (hm : Memory.wf s.buf)
    (hw : ∀ j, word0 s.base ≤ j → j < word0 (s.base + n) → (Memory.read s.buf j).isSome = true) :
    ∃ t u, runCipher f n s = .next t ∧ runCipher g n t = .next u ∧ u.buf = s.buf := by
  obtain ⟨m, hrun, he⟩ := runCipher_of_written (f := f) hc hk hf hw
  exact ⟨_, _, he, runCipher_stores hc hf hk (transformBlocks_inverse hm hgf hrun), rfl⟩

end RoundTrip

/-- Settles O41: the block functions are inverse both ways, and a canonical BUF is determined by its words. -/
theorem bufferRoundTrip : Obligations.BufferRoundTrip := by
  unfold Obligations.BufferRoundTrip
  exact fun n s ks hc hk hf hm hw =>
    ⟨runCipher_inverse (f := encBlock) (decBlock_encBlock ks s.nr.toNat) hc hk hf hm hw,
      runCipher_inverse (f := decBlock) (encBlock_decBlock ks s.nr.toNat) hc hk hf hm hw⟩

/-! ### Two shorter runs -/

/-- A run of `k + n` blocks is a run of the first `k` and then of the other `n` (rules R72, R176). -/
theorem transformBlocks_add {f : Block → Block} {q k n : Nat} {m m' : Memory 32} :
    transformBlocks f q (k + n) m = some m' ↔
      ∃ m1, transformBlocks f q k m = some m1 ∧ transformBlocks f (q + k) n m1 = some m' := by
  induction n generalizing m' with
  | zero => simp
  | succ n ih =>
    rw [← Nat.add_assoc k n 1, transformBlocks_succ]
    simp only [transformBlocks_succ, ih, Nat.add_assoc q k n]
    constructor
    · rintro ⟨m2, x, ⟨m1, h1, h2⟩, hx, rfl⟩
      exact ⟨m1, h1, m2, x, h2, hx, rfl⟩
    · rintro ⟨m1, h1, m2, x, h2, hx, rfl⟩
      exact ⟨m2, x, ⟨m1, h1, h2⟩, hx, rfl⟩

/-- What has happened when a cipher command ends with `RES = OK`. -/
theorem runCipher_ok {f : List Word → Nat → Block → Block} {n : Nat} {s t : State} (h : runCipher f n s = .next t)
    (hok : t.res = .ok) :
    s.ctx = .keyed ∧ blocksFit n s ∧ ∃ ks m, s.roundKeys = some ks ∧
      transformBlocks (f ks s.nr.toNat) s.base n s.buf = some m ∧ t = complete (storeBlocks m s) := by
  rcases runCipher_cases f n s with
    ⟨-, e⟩ | ⟨-, e⟩ | ⟨-, -, e⟩ | ⟨-, -, -, e⟩ | ⟨-, -, -, e⟩ | ⟨hc, hf, ks, m, hk, hm, e⟩ <;>
    rw [e] at h <;> cases h
  · cases hok
  · cases hok
  · cases hok
  · exact ⟨hc, hf, ks, m, hk, hm, rfl⟩

/-- Both shorter runs pass their checks, and the second transforms what the first left. -/
theorem runCipher_add {f : List Word → Nat → Block → Block} {k n : Nat} {s t : State}
    (h : runCipher f (k + n) s = .next t) (hok : t.res = .ok) (hq : s.bbase.toNat + k < 65536) :
    ∃ u v, runCipher f k s = .next u ∧ u.res = .ok ∧
      runCipher f n { u with bbase := BitVec.ofNat 16 (s.bbase.toNat + k) } = .next v ∧ v.res = .ok ∧
      v.buf = t.buf := by
  obtain ⟨hc, hf, ks, m, hk, hm, rfl⟩ := runCipher_ok h hok
  obtain ⟨m1, h1, h2⟩ := transformBlocks_add.1 hm
  have hbase : (BitVec.ofNat 16 (s.bbase.toNat + k)).toNat = s.base + k := Nat.mod_eq_of_lt hq
  have hfk : blocksFit k s := by simp only [blocksFit] at hf ⊢; omega
  refine ⟨_, complete (storeBlocks m _), runCipher_stores hc hfk hk h1, rfl, runCipher_stores hc ?_ hk ?_, rfl, rfl⟩
  · rw [blocksFit, State.base, hbase, Nat.add_assoc]
    exact hf
  · rw [State.base, hbase]
    exact h2

/-- Settles O43: ENC and DEC have the common shape of a cipher command. -/
theorem blocksAreIndependent : Obligations.BlocksAreIndependent := by
  unfold Obligations.BlocksAreIndependent
  intro op m n s t hop h hok hq
  rcases hop with rfl | rfl
  · exact runCipher_add (f := encBlock) h hok hq
  · exact runCipher_add (f := decBlock) h hok hq

end Sys2Proof.Machine
end
